-- ==== Sys2Proof/Word.lean ====
section
/-! DEFINITION. The word types of the machine (spec/00_scope.md R6, spec/30_encoding.md R72, R73). Every value is
unsigned; nothing sign-extends (R9). -/

namespace Sys2Proof

/-- One byte of memory, a general register, SP, DT, ST, and the immediate kk. -/
abbrev Byte := BitVec 8

/-- An instruction word, PC and I (R6, R70). -/
abbrev Word := BitVec 16

/-- The 12-bit address field nnn (R72). -/
abbrev Addr := BitVec 12

/-- The index of a general register: every value of a 4-bit field is one (R73). -/
abbrev Reg := Fin 16

/-- The index of a key (spec/10_state.md R30). -/
abbrev Key := Fin 16

end Sys2Proof
end

