-- ==== Sys2Proof/Config.lean ====
section
/-! DEFINITION. What the spec leaves to configuration (spec/00_scope.md R7) and the one free value of a step, the
random byte (spec/40_dispatch.md R108). -/

namespace Sys2Proof

/-- What LD F, Vx does (R7, spec/45_transfer.md R215). -/
inductive LdfPolicy where
  /-- I := FONT_BASE + 5 × (V[x] & 0xF). -/
  | glyph
  /-- Nothing but the PC changes (the reference's behaviour). -/
  | noop
  deriving DecidableEq, Repr

/-- The parameters R7 names, which "a model takes as named configuration fields". -/
structure Config where
  /-- LDF_POLICY. -/
  ldfPolicy : LdfPolicy
  /-- FONT_BASE, meaningful only under `glyph`. -/
  fontBase : Nat
  /-- TIMER_HZ, the host's timer rate, read by no rule of the core (spec/60_exceptions.md R250). -/
  timerHz : Nat
  deriving DecidableEq, Repr

/-- The defaults of R7: `glyph`, 0x000, 60. -/
def Config.default : Config := { ldfPolicy := .glyph, fontBase := 0x000, timerHz := 60 }

/-- The constraint on FONT_BASE (spec/92_eei_decisions.md D14): at most 0xFB0. -/
def Config.wf (c : Config) : Bool := decide (c.fontBase ≤ 0xFB0)

/-- FREE VALUE (log 2): the random byte that the n-th RND draws, any of the 256 values, "with no law relating draws of
different steps" (spec/41_base_ops.md R136). It has no body: nothing can evaluate it. -/
opaque Config.rndByte : Nat → Byte

end Sys2Proof
end

