-- ==== Sys2Proof/Syntax.lean ====
section
/-! DEFINITION. The instructions: one constructor per row of spec/opcode_table.json, with the operands the row's
operation uses (spec/30_encoding.md R72, R80, R85). The four hook rows carry the word's low 12 bits, so that the word
can be written back (log 10); their meaning reads none of them (spec/40_dispatch.md R110). -/

namespace Sys2Proof

inductive Instr where
  /-- `0-E0` CLS, R120. -/
  | cls
  /-- `0-EE` RET, R121. -/
  | ret
  /-- `0---` other, the hook written `SYS nnn`, R110. -/
  | hook0 (nnn : Addr)
  /-- `1nnn` JP addr, R123. -/
  | jp (nnn : Addr)
  /-- `2nnn` CALL addr, R122. -/
  | call (nnn : Addr)
  /-- `3xkk` SE Vx, kk, R124. -/
  | seImm (x : Reg) (kk : Byte)
  /-- `4xkk` SNE Vx, kk, R125. -/
  | sneImm (x : Reg) (kk : Byte)
  /-- `5xy-` SE Vx, Vy, R126. -/
  | seReg (x y : Reg)
  /-- `6xkk` LD Vx, kk, R127. -/
  | ldImm (x : Reg) (kk : Byte)
  /-- `7xkk` ADD Vx, kk, R128. -/
  | addImm (x : Reg) (kk : Byte)
  /-- `8xy0` LD Vx, Vy, R152. -/
  | ldReg (x y : Reg)
  /-- `8xy1` OR Vx, Vy, R153. -/
  | or (x y : Reg)
  /-- `8xy2` AND Vx, Vy, R154. -/
  | and (x y : Reg)
  /-- `8xy3` XOR Vx, Vy, R160. -/
  | xor (x y : Reg)
  /-- `8xy4` ADD Vx, Vy, R155. -/
  | addReg (x y : Reg)
  /-- `8xy5` SUB Vx, Vy, R156. -/
  | sub (x y : Reg)
  /-- `8x-6` SHR Vx, R157. -/
  | shr (x : Reg)
  /-- `8xy7` SUBN Vx, Vy, R158. -/
  | subn (x y : Reg)
  /-- `8x-E` SHL Vx, R159. -/
  | shl (x : Reg)
  /-- Class 8 with any other n, the hook, R110. -/
  | hook8 (low : Addr)
  /-- `9xy-` SNE Vx, Vy, R129. -/
  | sneReg (x y : Reg)
  /-- `Annn` LD I, addr, R133. -/
  | ldI (nnn : Addr)
  /-- `Bnnn` JP V0, addr, R134. -/
  | jpV0 (nnn : Addr)
  /-- `Cxkk` RND Vx, kk, R135. -/
  | rnd (x : Reg) (kk : Byte)
  /-- `Dxyn` DRW Vx, Vy, n, R172; n is a row count 0..15 (R73). -/
  | drw (x y : Reg) (n : Fin 16)
  /-- `Ex9E` SKP Vx, R190. -/
  | skp (x : Reg)
  /-- `ExA1` SKNP Vx, R191. -/
  | sknp (x : Reg)
  /-- Class E with any other byte 1, the hook, R110. -/
  | hookE (low : Addr)
  /-- `Fx07` LD Vx, DT, R210. -/
  | ldVxDt (x : Reg)
  /-- `Fx0A` LD Vx, K, R192. -/
  | ldK (x : Reg)
  /-- `Fx15` LD DT, Vx, R211. -/
  | ldDtVx (x : Reg)
  /-- `Fx18` LD ST, Vx, R212. -/
  | ldStVx (x : Reg)
  /-- `Fx1E` ADD I, Vx, R213. -/
  | addI (x : Reg)
  /-- `Fx29` LD F, Vx, R215. -/
  | ldF (x : Reg)
  /-- `Fx33` LD B, Vx, R216. -/
  | ldB (x : Reg)
  /-- `Fx55` LD [I], Vx, R217. -/
  | ldMemVx (x : Reg)
  /-- `Fx65` LD Vx, [I], R218. -/
  | ldVxMem (x : Reg)
  /-- Class F with any other byte 1, the hook, R110. -/
  | hookF (low : Addr)
  deriving DecidableEq, Repr

end Sys2Proof
end

