-- ==== Sys2Proof/Decode.lean ====
section
/-! DEFINITION. From bytes to instructions and back (spec/30_encoding.md). Decoding is total on the two bytes of a word:
every word decodes (R86, R87); only a list of fewer than two bytes is rejected, by name. -/

namespace Sys2Proof

/-! ### Byte order and fields -/

/-- `hi : lo`, the 16-bit value `hi * 256 + lo` (spec/00_scope.md R9, R70). -/
def pair (hi lo : Byte) : Word := BitVec.ofNat 16 (hi.toNat * 256 + lo.toNat)

/-- `w[15:8]`. -/
def hiByte (w : Word) : Byte := w.extractLsb 15 8

/-- `w[7:0]`. -/
def loByte (w : Word) : Byte := w.extractLsb 7 0

/-- A 4-bit field as an index or a count, every value valid (R73). -/
def nibble (f : BitVec 4) : Fin 16 := ⟨f.toNat, f.isLt⟩

/-- class = w[15:12] (R72). -/
def fieldClass (w : Word) : Fin 16 := nibble (w.extractLsb 15 12)

/-- x = w[11:8] (R72). -/
def fieldX (w : Word) : Reg := nibble (w.extractLsb 11 8)

/-- y = w[7:4] (R72). -/
def fieldY (w : Word) : Reg := nibble (w.extractLsb 7 4)

/-- n = w[3:0] (R72). -/
def fieldN (w : Word) : Fin 16 := nibble (w.extractLsb 3 0)

/-- kk = w[7:0] (R72). -/
def fieldKk (w : Word) : Byte := loByte w

/-- nnn = w[11:0] (R72). -/
def fieldNnn (w : Word) : Addr := w.extractLsb 11 0

/-! ### The opcode map, R80 -/

/-- Class 0x0: the match is on byte 1 alone, for every x (R81). -/
def decode0 (w : Word) : Instr :=
  if fieldKk w = 0xE0 then .cls
  else if fieldKk w = 0xEE then .ret
  else .hook0 (fieldNnn w)

/-- Class 0x8: "Dispatch on the low 4 bits of byte 1" (R82). -/
def decode8 (w : Word) : Instr :=
  match fieldN w with
  | 0x0 => .ldReg (fieldX w) (fieldY w)
  | 0x1 => .or (fieldX w) (fieldY w)
  | 0x2 => .and (fieldX w) (fieldY w)
  | 0x3 => .xor (fieldX w) (fieldY w)
  | 0x4 => .addReg (fieldX w) (fieldY w)
  | 0x5 => .sub (fieldX w) (fieldY w)
  | 0x6 => .shr (fieldX w)
  | 0x7 => .subn (fieldX w) (fieldY w)
  | 0xE => .shl (fieldX w)
  | _ => .hook8 (fieldNnn w)

/-- Class 0xE, on byte 1 (R83). -/
def decodeE (w : Word) : Instr :=
  if fieldKk w = 0x9E then .skp (fieldX w)
  else if fieldKk w = 0xA1 then .sknp (fieldX w)
  else .hookE (fieldNnn w)

/-- Class 0xF, on byte 1 (R83). -/
def decodeF (w : Word) : Instr :=
  if fieldKk w = 0x07 then .ldVxDt (fieldX w)
  else if fieldKk w = 0x0A then .ldK (fieldX w)
  else if fieldKk w = 0x15 then .ldDtVx (fieldX w)
  else if fieldKk w = 0x18 then .ldStVx (fieldX w)
  else if fieldKk w = 0x1E then .addI (fieldX w)
  else if fieldKk w = 0x29 then .ldF (fieldX w)
  else if fieldKk w = 0x33 then .ldB (fieldX w)
  else if fieldKk w = 0x55 then .ldMemVx (fieldX w)
  else if fieldKk w = 0x65 then .ldVxMem (fieldX w)
  else .hookF (fieldNnn w)

/-- The decode function of R87: one operation and its operands for each of the 65536 words. Classes 5 and 9 ignore n
(R84). -/
def decodeWord (w : Word) : Instr :=
  match fieldClass w with
  | 0x0 => decode0 w
  | 0x1 => .jp (fieldNnn w)
  | 0x2 => .call (fieldNnn w)
  | 0x3 => .seImm (fieldX w) (fieldKk w)
  | 0x4 => .sneImm (fieldX w) (fieldKk w)
  | 0x5 => .seReg (fieldX w) (fieldY w)
  | 0x6 => .ldImm (fieldX w) (fieldKk w)
  | 0x7 => .addImm (fieldX w) (fieldKk w)
  | 0x8 => decode8 w
  | 0x9 => .sneReg (fieldX w) (fieldY w)
  | 0xA => .ldI (fieldNnn w)
  | 0xB => .jpV0 (fieldNnn w)
  | 0xC => .rnd (fieldX w) (fieldKk w)
  | 0xD => .drw (fieldX w) (fieldY w) (fieldN w)
  | 0xE => decodeE w
  | _ => decodeF w   -- 0xF, the one class left

/-- "a pure function of the two fetched bytes" (R71), first byte high (R70). -/
def decode (b0 b1 : Byte) : Instr := decodeWord (pair b0 b1)

/-- Why a list of bytes is no instruction: it is shorter than the two bytes of R71. -/
inductive DecodeError where
  | truncated (length : Nat)
  deriving DecidableEq, Repr

/-- The first instruction of a list of bytes, and the bytes after it. -/
def decodeBytes : List Byte → Except DecodeError (Instr × List Byte)
  | b0 :: b1 :: rest => .ok (decode b0 b1, rest)
  | short => .error (.truncated short.length)

/-- The two bytes of a table word as memory holds them: the high byte at the lower address (R70). -/
def layWord (w : Nat) : List Byte := [BitVec.ofNat 8 (w / 256), BitVec.ofNat 8 w]

/-- The instruction the decoder reads from a word of the opcode table; no row is longer than 16 bits (R71). -/
def decodeTableWord (nbits w : Nat) : Option Instr :=
  if 16 < nbits then none
  else
    match decodeBytes (layWord w) with
    | .ok (i, _) => some i
    | .error _ => none

/-! ### The encoder, from the formats of R74; ignored bits are written 0 (log 10) -/

/-- Format `addr`: `cccc aaaa aaaa aaaa`. -/
def formatAddr (c : Nat) (nnn : Addr) : Word := BitVec.ofNat 16 (c * 4096 + nnn.toNat)

/-- Formats `x_kk` and `x_sub`: `cccc xxxx kkkk kkkk`. -/
def formatXKk (c : Nat) (x : Reg) (kk : Byte) : Word := BitVec.ofNat 16 (c * 4096 + x.val * 256 + kk.toNat)

/-- Formats `x_y`, `x_y_n` and `alu`: `cccc xxxx yyyy nnnn`. -/
def formatXYN (c : Nat) (x y n : Fin 16) : Word :=
  BitVec.ofNat 16 (c * 4096 + x.val * 256 + y.val * 16 + n.val)

/-- The word of an instruction. -/
def encode : Instr → Word
  | .cls => formatXKk 0x0 0 0xE0
  | .ret => formatXKk 0x0 0 0xEE
  | .hook0 nnn => formatAddr 0x0 nnn
  | .jp nnn => formatAddr 0x1 nnn
  | .call nnn => formatAddr 0x2 nnn
  | .seImm x kk => formatXKk 0x3 x kk
  | .sneImm x kk => formatXKk 0x4 x kk
  | .seReg x y => formatXYN 0x5 x y 0
  | .ldImm x kk => formatXKk 0x6 x kk
  | .addImm x kk => formatXKk 0x7 x kk
  | .ldReg x y => formatXYN 0x8 x y 0x0
  | .or x y => formatXYN 0x8 x y 0x1
  | .and x y => formatXYN 0x8 x y 0x2
  | .xor x y => formatXYN 0x8 x y 0x3
  | .addReg x y => formatXYN 0x8 x y 0x4
  | .sub x y => formatXYN 0x8 x y 0x5
  | .shr x => formatXYN 0x8 x 0 0x6
  | .subn x y => formatXYN 0x8 x y 0x7
  | .shl x => formatXYN 0x8 x 0 0xE
  | .hook8 low => formatAddr 0x8 low
  | .sneReg x y => formatXYN 0x9 x y 0
  | .ldI nnn => formatAddr 0xA nnn
  | .jpV0 nnn => formatAddr 0xB nnn
  | .rnd x kk => formatXKk 0xC x kk
  | .drw x y n => formatXYN 0xD x y n
  | .skp x => formatXKk 0xE x 0x9E
  | .sknp x => formatXKk 0xE x 0xA1
  | .hookE low => formatAddr 0xE low
  | .ldVxDt x => formatXKk 0xF x 0x07
  | .ldK x => formatXKk 0xF x 0x0A
  | .ldDtVx x => formatXKk 0xF x 0x15
  | .ldStVx x => formatXKk 0xF x 0x18
  | .addI x => formatXKk 0xF x 0x1E
  | .ldF x => formatXKk 0xF x 0x29
  | .ldB x => formatXKk 0xF x 0x33
  | .ldMemVx x => formatXKk 0xF x 0x55
  | .ldVxMem x => formatXKk 0xF x 0x65
  | .hookF low => formatAddr 0xF low

/-- The two bytes of an instruction, first byte high (R70). -/
def encodeBytes (i : Instr) : List Byte := [hiByte (encode i), loByte (encode i)]

end Sys2Proof
end

