-- ==== Sys2Proof/Machine/State.lean ====
section
/-! DEFINITION. The state record of spec/10_state.md R20, as plain data, and the reasons a step can stop. -/

namespace Sys2Proof.Machine

/-- The fault reasons of spec/60_exceptions.md R240, each with the value it records. All are the spec's model-only
faults, raised where the source leaves an access undefined; a stop here is safe (log 1). -/
inductive Fault where
  /-- Code 1. Raised by the fetch of any step when PC > 0xFFE (spec/40_dispatch.md R101); records that PC. Safe. -/
  | fetchOutOfRange (pc : Word)
  /-- Code 2. Raised by MemRead and MemWrite (spec/20_memory.md R53, R54) and by the range checks of DRW, LD B, LD [I]
  and LD Vx, [I], for an address above 0xFFF; records an address. Safe. -/
  | dataOutOfRange (addr : Nat)
  /-- Code 3. Raised by SKP and SKNP when V[x] > 15 (spec/44_keys.md R195); records V[x]. Safe. -/
  | keyIndexOutOfRange (v : Byte)
  deriving DecidableEq, Repr

/-- What the model declines to do. -/
inductive Refusal where
  /-- An instruction whose arm has no meaning yet; no arm of exec uses it. Safe. -/
  | notModelled (mnemonic : String)
  /-- The `load` transaction of an image longer than 0xCA0 bytes: "should be rejected by the loader, not the core"
  (spec/70_reset_and_hazards.md R282, spec/93_implementation_defined.md U1). Raised by loadImage, by no step. Safe. -/
  | imageTooLong (length : Nat)
  /-- A font preload that is not 80 bytes below 0x200 (spec/70_reset_and_hazards.md R283, spec/60_exceptions.md R261; log
  11). Raised by loadFont, by no step. Safe. -/
  | fontMisplaced (length : Nat)
  deriving DecidableEq, Repr

/-- Memory: the (address, byte) pairs that differ from 0x00, addresses rising (Machine/Ops.lean, Memory.wf). -/
abbrev Memory := List Host.Cell

/-- The Machine (R20). The call stack and the framebuffer are regions of `mem`. -/
structure State where
  /-- `memory`, 4096 bytes (spec/20_memory.md R50). -/
  mem : Memory
  /-- V[0]..V[15], VF being V[15] (R21, R22). -/
  v : Vector Byte 16
  /-- I (R23). -/
  i : Word
  /-- PC, "byte address of the next instruction to fetch" (R25). -/
  pc : Word
  /-- SP, the byte offset into the stack region (R26). -/
  sp : Byte
  /-- DT (R28). -/
  dt : Byte
  /-- ST (R29). -/
  st : Byte
  /-- K, the current key-down snapshot, true = down (R30). -/
  keys : Vector Bool 16
  /-- K_prev, the snapshot LD Vx, K takes (R31). -/
  keysPrev : Vector Bool 16
  /-- `waiting_for_key_press` (R32). -/
  waiting : Bool
  /-- The model-only sticky `fault` (R20, spec/60_exceptions.md R241). -/
  fault : Option Fault
  /-- THE MODEL'S OWN: how many random draws have been read (log 2, log 3). -/
  draws : Nat
  deriving DecidableEq, Repr

/-- Construction (R40): "all storage zeroed, PC = 0x200, SP = 0, flag cleared". `draws` is 0 by DESIGN CHOICE (log 3). -/
def State.reset : State where
  mem := []
  v := Vector.replicate 16 0x00
  i := 0x0000
  pc := 0x0200
  sp := 0x00
  dt := 0x00
  st := 0x00
  keys := Vector.replicate 16 false
  keysPrev := Vector.replicate 16 false
  waiting := false
  fault := none
  draws := 0

end Sys2Proof.Machine
end

