-- ==== Sys2Proof/Machine/Ops.lean ====
section
/-! DEFINITION. The named operations over memory and registers, raising a fault, and the PC updates
(spec/20_memory.md, spec/10_state.md, spec/40_dispatch.md, spec/60_exceptions.md). -/

namespace Sys2Proof.Machine

/-- What a step or a meaning answers. -/
abbrev Out := Host.Outcome State Fault Refusal

/-! ### Memory as a canonical list -/

/-- What an unlisted address reads as: 0x00, the construction value of every byte (R40). -/
def Memory.blank : Byte := 0x00

/-- The byte at an address. -/
def Memory.read : Memory → Nat → Byte
  | [], _ => Memory.blank
  | (b, u) :: rest, a => if a = b then u else Memory.read rest a

/-- Drop the entry of an address. -/
def Memory.erase (m : Memory) (a : Nat) : Memory := m.filter (fun c => c.1 != a)

/-- Put an entry at its place in the rising order. -/
def Memory.insert : Memory → Nat → Byte → Memory
  | [], a, b => [(a, b)]
  | (c, u) :: rest, a, b =>
    if a < c then (a, b) :: (c, u) :: rest
    else if a = c then (a, b) :: rest
    else (c, u) :: Memory.insert rest a b

/-- memory[a] <- b. Writing what an unlisted address reads as removes the entry. -/
def Memory.write (m : Memory) (a : Nat) (b : Byte) : Memory :=
  if b = Memory.blank then Memory.erase m a else Memory.insert m a b

/-- Consecutive bytes from an address up. -/
def Memory.writeBytes : Memory → Nat → List Byte → Memory
  | m, _, [] => m
  | m, a, b :: bs => Memory.writeBytes (Memory.write m a b) (a + 1) bs

/-- The addresses rise strictly. -/
def Memory.rising : Memory → Bool
  | [] => true
  | [_] => true
  | c :: d :: rest => decide (c.1 < d.1) && Memory.rising (d :: rest)

/-- The canonical form: addresses strictly rising, inside the 4096 bytes of R50, and no entry equal to what an unlisted
address reads as. -/
def Memory.wf (m : Memory) : Bool :=
  Memory.rising m && m.all (fun c => decide (c.1 ≤ 0xFFF) && c.2 != Memory.blank)

/-! ### MemRead and MemWrite: the only memory primitives of an instruction (spec/00_scope.md R10) -/

/-- R53: `MemRead(addr, 1)`. -/
def memRead (m : Memory) (a : Nat) : Except Fault Byte :=
  if 0xFFF < a then .error (.dataOutOfRange a) else .ok (Memory.read m a)

/-- R54: `MemWrite(addr, 1, v)`. -/
def memWrite (m : Memory) (a : Nat) (b : Byte) : Except Fault Memory :=
  if 0xFFF < a then .error (.dataOutOfRange a) else .ok (Memory.write m a b)

/-! ### Raising a fault, R241 -/

/-- The end of an instruction: the state its writes made, or the fault it raised. A raised fault carries none of the
writes made before it, so it is precise (spec/20_memory.md R55, R241). -/
def settle : Except Fault State → Out
  | .ok t => .next t
  | .error r => .fault r

/-- `fault <- reason` on the state as it stood at the start of the step: all that a raised fault changes (R241). The host's
transactions use it (Machine/Transactions.lean), since the fault outcome of a step carries no state (log 1). -/
def State.raise (s : State) (r : Fault) : State := { s with fault := some r }

/-! ### Registers: every read and write of one goes through these -/

/-- V[r] (R21). -/
def State.reg (s : State) (r : Reg) : Byte := s.v[r]

/-- V[r] <- b. -/
def State.setReg (s : State) (r : Reg) (b : Byte) : State := { s with v := s.v.set r b }

/-- The index of the flag register VF (R17, R22). -/
def flagReg : Reg := 15

/-- V[15] <- 0 or 1 (R22: "must overwrite V[15] unconditionally"). -/
def State.setFlag (s : State) (f : Bool) : State := s.setReg flagReg (if f then 1 else 0)

/-- The whole register file at once (LD Vx, [I]). -/
def State.setRegs (s : State) (v : Vector Byte 16) : State := { s with v := v }

/-- I <- w (R23). -/
def State.setI (s : State) (w : Word) : State := { s with i := w }

/-- PC <- w (R25). -/
def State.setPc (s : State) (w : Word) : State := { s with pc := w }

/-- SP <- b (R26). -/
def State.setSp (s : State) (b : Byte) : State := { s with sp := b }

/-- DT <- b (R28). -/
def State.setDt (s : State) (b : Byte) : State := { s with dt := b }

/-- ST <- b (R29). -/
def State.setSt (s : State) (b : Byte) : State := { s with st := b }

/-- memory <- m, after the writes of an instruction. -/
def State.setMem (s : State) (m : Memory) : State := { s with mem := m }

/-- K <- k: the host's write (R30). -/
def State.setKeys (s : State) (k : Vector Bool 16) : State := { s with keys := k }

/-- K_prev <- k (R31). -/
def State.setKeysPrev (s : State) (k : Vector Bool 16) : State := { s with keysPrev := k }

/-- waiting <- b (R32). -/
def State.setWaiting (s : State) (b : Bool) : State := { s with waiting := b }

/-- The random byte of this step (spec/41_base_ops.md R136): a free value (log 2). -/
def State.draw (s : State) : Byte := Config.rndByte s.draws

/-- One draw has been read (log 2). -/
def State.nextDraw (s : State) : State := { s with draws := s.draws + 1 }

/-! ### PC updates, modulo 2^16 (spec/40_dispatch.md R103, R104) -/

/-- The default: PC <- (PC + 2) mod 2^16. -/
def State.advance (s : State) : State := s.setPc (s.pc + 2)

/-- A skip instruction: PC + 4 when the condition holds, PC + 2 otherwise. -/
def State.skipIf (s : State) (taken : Bool) : State := s.setPc (if taken then s.pc + 4 else s.pc + 2)

/-! ### The fetch of a step -/

/-- Fetch and decode (R100, R101): the check on PC comes first, then the two bytes are read. -/
def fetch (s : State) : Except Fault Instr :=
  if 0xFFE < s.pc.toNat then .error (.fetchOutOfRange s.pc)
  else do
    let b0 ← memRead s.mem s.pc.toNat
    let b1 ← memRead s.mem (s.pc.toNat + 1)
    pure (decode b0 b1)

/-- `s` with the word of the opcode table stored where the next fetch reads, first byte high (R70); where PC leaves no
place for a word in memory, `s` itself (that fetch faults, R101). -/
def State.placeWord (s : State) (w : Nat) : State :=
  if 0xFFE < s.pc.toNat then s else s.setMem (Memory.writeBytes s.mem s.pc.toNat (layWord w))

end Sys2Proof.Machine
end

