-- ==== Sys2Proof/Machine/Flags.lean ====
section
/-! DEFINITION. The flag computations: what V[15] is written with (spec/10_state.md R22, spec/42_alu.md R161). DRW's
collision is computed in Machine/Draw.lean. -/

namespace Sys2Proof.Machine

/-- ADD Vx, Vy: the carry, `sum > 255` of the unbounded sum (spec/42_alu.md R155). -/
def carryFlag (a b : Byte) : Bool := decide (255 < a.toNat + b.toNat)

/-- SUB and SUBN: not-borrow of `a - b`, by strict comparison, so that equal operands give 0 (R156, R158, R161). -/
def notBorrowFlag (a b : Byte) : Bool := decide (b.toNat < a.toNat)

/-- SHR: the bit shifted out, `a & 1` (R157). -/
def shiftRightFlag (a : Byte) : Bool := a.getLsbD 0

/-- SHL: the bit shifted out, `(a >> 7) & 1` (R159). -/
def shiftLeftFlag (a : Byte) : Bool := a.getLsbD 7

/-- ADD I: the 12-bit overflow of the unbounded sum (spec/45_transfer.md R213). -/
def addressOverflowFlag (sum : Nat) : Bool := decide (0xFFF < sum)

/-- The end of a class 8 flag instruction: V[15] first, V[x] second, so that with x = 15 the result stays
(R151), then the PC. -/
def State.writeFlagged (s : State) (x : Reg) (flag : Bool) (result : Byte) : State :=
  ((s.setFlag flag).setReg x result).advance

end Sys2Proof.Machine
end

