-- ==== Sys2Proof/Machine/Alu.lean ====
section
/-! DEFINITION. The arithmetic/logic group, class 0x8 (spec/42_alu.md). Both operands are read at the start of the
instruction (R151); byte arithmetic is modulo 256 (R161). -/

namespace Sys2Proof.Machine

/-- LD Vx, Vy, R152. -/
def execLdReg (x y : Reg) (s : State) : Out := .next (s.setReg x (s.reg y)).advance

/-- OR Vx, Vy, R153. -/
def execOr (x y : Reg) (s : State) : Out := .next (s.setReg x (s.reg x ||| s.reg y)).advance

/-- AND Vx, Vy, R154. -/
def execAnd (x y : Reg) (s : State) : Out := .next (s.setReg x (s.reg x &&& s.reg y)).advance

/-- XOR Vx, Vy, R160: "a clean, independent bitwise operation". -/
def execXor (x y : Reg) (s : State) : Out := .next (s.setReg x (s.reg x ^^^ s.reg y)).advance

/-- ADD Vx, Vy, R155. -/
def execAddReg (x y : Reg) (s : State) : Out :=
  .next (s.writeFlagged x (carryFlag (s.reg x) (s.reg y)) (s.reg x + s.reg y))

/-- SUB Vx, Vy, R156. -/
def execSub (x y : Reg) (s : State) : Out :=
  .next (s.writeFlagged x (notBorrowFlag (s.reg x) (s.reg y)) (s.reg x - s.reg y))

/-- SUBN Vx, Vy, R158. -/
def execSubn (x y : Reg) (s : State) : Out :=
  .next (s.writeFlagged x (notBorrowFlag (s.reg y) (s.reg x)) (s.reg y - s.reg x))

/-- SHR Vx, R157: V[y] is not read. -/
def execShr (x : Reg) (s : State) : Out := .next (s.writeFlagged x (shiftRightFlag (s.reg x)) (s.reg x >>> 1))

/-- SHL Vx, R159: V[y] is not read. -/
def execShl (x : Reg) (s : State) : Out := .next (s.writeFlagged x (shiftLeftFlag (s.reg x)) (s.reg x <<< 1))

end Sys2Proof.Machine
end

