-- ==== Sys2Proof/Machine/Operands.lean ====
section
/-! DEFINITION. The operand forms of the instruction set: immediates, stack slots, register ranges, digits, glyphs, pixels
and keys. -/

namespace Sys2Proof.Machine

/-- The configuration that exec and step run with: the spec's defaults (spec/00_scope.md R7; log 4).
execWith and stepWith (Machine/Transactions.lean) take any. -/
def config : Config := Config.default

/-- nnn "zero-extended to 16 bits when written to PC or I" (spec/30_encoding.md R73). -/
def zextAddr (nnn : Addr) : Word := nnn.setWidth 16

/-- A byte zero-extended to 16 bits (JP V0, spec/41_base_ops.md R134). -/
def zextByte (b : Byte) : Word := b.setWidth 16

/-- The address of the stack slot's high byte, `0xEA0 + SP` (spec/10_state.md R27). -/
def stackSlot (sp : Byte) : Nat := 0xEA0 + sp.toNat

/-- The registers in index order. -/
def allRegs : List Reg := [0, 1, 2, 3, 4, 5, 6, 7, 8, 9, 10, 11, 12, 13, 14, 15]

/-- V[0]..V[x], in the order the transfers take them (spec/45_transfer.md R217, R218). -/
def regsUpTo (x : Reg) : List Reg := allRegs.filter (fun r => decide (r ≤ x))

/-- The decimal digits of LD B (R216): hundreds, tens, ones. -/
def hundreds (a : Byte) : Byte := BitVec.ofNat 8 (a.toNat / 100)

def tens (a : Byte) : Byte := BitVec.ofNat 8 (a.toNat / 10 % 10)

def ones (a : Byte) : Byte := BitVec.ofNat 8 (a.toNat % 10)

/-- `FONT_BASE + 5 * (a & 0x0F)` (R215): only the low nibble selects the glyph. -/
def glyphAddress (c : Config) (a : Byte) : Word := BitVec.ofNat 16 (c.fontBase + 5 * (a.toNat % 16))

/-! ### The display view, spec/10_state.md R34 -/

/-- The byte of the framebuffer that holds the pixel at column px and row py. -/
def pixelAddr (px py : Nat) : Nat := 0xF00 + 8 * py + px / 8

/-- The bit of that byte: the leftmost pixel is the most significant bit. -/
def pixelBit (px : Nat) : Nat := 7 - px % 8

/-- The pixel at column px and row py, true = lit: a view of memory, "never a separate copy". -/
def State.pixel (s : State) (px py : Nat) : Bool :=
  (Memory.read s.mem (pixelAddr px py)).getLsbD (pixelBit px)

/-! ### Keys -/

/-- K[k] (spec/10_state.md R30). -/
def State.key (s : State) (k : Key) : Bool := s.keys[k]

/-- The key that V[x] names, if it is one of the 16 (spec/44_keys.md R195). -/
def keyIndex (v : Byte) : Except Fault Key :=
  if h : v.toNat < 16 then .ok ⟨v.toNat, h⟩ else .error (.keyIndexOutOfRange v)

/-- The keys in index order. -/
def allKeys : List Key := [0, 1, 2, 3, 4, 5, 6, 7, 8, 9, 10, 11, 12, 13, 14, 15]

/-- min { i : K[i] != K_prev[i] }, if there is one (R192, R194: "First" is the lowest index). -/
def firstChangedKey (now before : Vector Bool 16) : Option Key := allKeys.find? (fun k => now[k] != before[k])

end Sys2Proof.Machine
end

