-- ==== Sys2Proof/Machine/BaseOps.lean ====
section
/-! DEFINITION. The class-level operations (spec/41_base_ops.md) and the unimplemented-instruction hook
(spec/40_dispatch.md R110). -/

namespace Sys2Proof.Machine

/-! ### The hook, R110 -/

/-- "no architectural state changes except PC advancing by 2". -/
def hook (s : State) : Out := .next s.advance

/-- Class 0 hook, `SYS nnn`. -/
def execHook0 (s : State) : Out := hook s

/-- Class 8 hook. -/
def execHook8 (s : State) : Out := hook s

/-- Class E hook. -/
def execHookE (s : State) : Out := hook s

/-- Class F hook. -/
def execHookF (s : State) : Out := hook s

/-! ### Class 0 -/

/-- The 256 addresses of the framebuffer, rising (spec/20_memory.md R51). -/
def framebufferAddrs : List Nat := List.range' 0xF00 256

/-- CLS, R120: `for a in 0xF00 .. 0xFFF: MemWrite(a, 1, 0x00)`. -/
def execCls (s : State) : Out := settle do
  let m ← framebufferAddrs.foldlM (fun m a => memWrite m a 0x00) s.mem
  pure (s.setMem m).advance

/-- RET, R121: SP is decremented first, the slot read at the new SP (spec/90_conflicts.md C2). -/
def execRet (s : State) : Out := settle do
  let sp' := s.sp - 2
  let hi ← memRead s.mem (stackSlot sp')
  let lo ← memRead s.mem (stackSlot sp' + 1)
  pure ((s.setSp sp').setPc (pair hi lo))

/-! ### Jumps and calls -/

/-- JP addr, R123. -/
def execJp (nnn : Addr) (s : State) : Out := .next (s.setPc (zextAddr nnn))

/-- CALL addr, R122: the whole return address, high byte first, at the old SP. -/
def execCall (nnn : Addr) (s : State) : Out := settle do
  let ret := s.pc + 2
  let m ← memWrite s.mem (stackSlot s.sp) (hiByte ret)
  let m ← memWrite m (stackSlot s.sp + 1) (loByte ret)
  pure (((s.setMem m).setSp (s.sp + 2)).setPc (zextAddr nnn))

/-- JP V0, addr, R134: the sum is not reduced to 12 bits. -/
def execJpV0 (nnn : Addr) (s : State) : Out := .next (s.setPc (zextByte (s.reg 0) + zextAddr nnn))

/-! ### Skips -/

/-- SE Vx, kk, R124. -/
def execSeImm (x : Reg) (kk : Byte) (s : State) : Out := .next (s.skipIf (s.reg x == kk))

/-- SNE Vx, kk, R125. -/
def execSneImm (x : Reg) (kk : Byte) (s : State) : Out := .next (s.skipIf (s.reg x != kk))

/-- SE Vx, Vy, R126. -/
def execSeReg (x y : Reg) (s : State) : Out := .next (s.skipIf (s.reg x == s.reg y))

/-- SNE Vx, Vy, R129. -/
def execSneReg (x y : Reg) (s : State) : Out := .next (s.skipIf (s.reg x != s.reg y))

/-! ### Immediate loads and adds -/

/-- LD Vx, kk, R127. -/
def execLdImm (x : Reg) (kk : Byte) (s : State) : Out := .next (s.setReg x kk).advance

/-- ADD Vx, kk, R128: modulo 256, no flag. -/
def execAddImm (x : Reg) (kk : Byte) (s : State) : Out := .next (s.setReg x (s.reg x + kk)).advance

/-- LD I, addr, R133. -/
def execLdI (nnn : Addr) (s : State) : Out := .next (s.setI (zextAddr nnn)).advance

/-! ### Random -/

/-- RND Vx, kk with the step's random draw r, R135. The draw is counted, so that the next one is a fresh value (log 2). -/
def rndWith (r : Byte) (x : Reg) (kk : Byte) (s : State) : Out := .next (s.setReg x (r &&& kk)).nextDraw.advance

/-- RND Vx, kk: the draw is the free value of this step (R136). -/
def execRnd (x : Reg) (kk : Byte) (s : State) : Out := rndWith s.draw x kk s

end Sys2Proof.Machine
end

