-- ==== Sys2Proof/Machine/Draw.lean ====
section
/-! DEFINITION. The sprite draw and the collision detector (spec/43_draw.md): the pixel loop of R172, which is the
instruction, and the byte-level form of R175, which claims compare with it. -/

namespace Sys2Proof.Machine

/-- The loop state of a draw: memory and the collision accumulator. -/
abbrev DrawAcc := Memory × Bool

/-- Column c of sprite row r (the inner body of R172). -/
def drawPixel (ox oy r : Nat) (sprite : Byte) (acc : DrawAcc) (c : Nat) : Except Fault DrawAcc :=
  if sprite.getLsbD (7 - c) then do
    let px := (ox + c) % 64
    let py := (oy + r) % 32
    let old ← memRead acc.1 (pixelAddr px py)
    let m ← memWrite acc.1 (pixelAddr px py) (old ^^^ (1#8 <<< pixelBit px))
    pure (m, acc.2 || old.getLsbD (pixelBit px))
  else pure acc

/-- Sprite row r: the byte at I + r is read after the rows before it were written (R172, spec/92_eei_decisions.md D11). -/
def drawRow (base ox oy : Nat) (acc : DrawAcc) (r : Nat) : Except Fault DrawAcc := do
  let sprite ← memRead acc.1 (base + r)
  (List.range 8).foldlM (drawPixel ox oy r sprite) acc

/-- The rows 0 .. n-1 in increasing order, from no collision. -/
def drawRows (base ox oy n : Nat) (m : Memory) : Except Fault DrawAcc :=
  (List.range n).foldlM (drawRow base ox oy) (m, false)

/-- The range check before any write (R172, spec/20_memory.md R55): the first row whose byte lies above 0xFFF. -/
def checkSprite (base n : Nat) : Except Fault Unit :=
  match (List.range n).find? (fun r => decide (0xFFF < base + r)) with
  | some r => .error (.dataOutOfRange (base + r))
  | none => .ok ()

/-- DRW around a way to draw the rows: the origin is read before any write, V[15] is written once, after all rows
(R172, R173). -/
def drawWith (rows : Nat → Nat → Nat → Nat → Memory → Except Fault DrawAcc) (x y : Reg) (n : Fin 16) (s : State) : Out :=
  settle do
    checkSprite s.i.toNat n.val
    let drawn ← rows s.i.toNat (s.reg x).toNat (s.reg y).toNat n.val s.mem
    pure ((s.setMem drawn.1).setFlag drawn.2).advance

/-- DRW Vx, Vy, n, R172. -/
def execDrw (x y : Reg) (n : Fin 16) (s : State) : Out := drawWith drawRows x y n s

/-! ### The byte-level form, R175 -/

/-- XOR one part of a sprite row into a framebuffer byte, testing for overlap before the write. -/
def xorByte (acc : DrawAcc) (a : Nat) (bits : Byte) : Except Fault DrawAcc := do
  let fb ← memRead acc.1 a
  let m ← memWrite acc.1 a (fb ^^^ bits)
  pure (m, acc.2 || (fb &&& bits) != 0)

/-- One row of R175: the left part, and the right part when the origin is not byte-aligned, in the next byte of the same
row. -/
def drawRowBytes (base ox oy : Nat) (acc : DrawAcc) (r : Nat) : Except Fault DrawAcc := do
  let sprite ← memRead acc.1 (base + r)
  let shift := ox % 8
  let col := ox % 64 / 8
  let row := 0xF00 + 8 * ((oy + r) % 32)
  let acc ← xorByte acc (row + col) (sprite >>> shift)
  if shift = 0 then pure acc else xorByte acc (row + (col + 1) % 8) (sprite <<< (8 - shift))

/-- The rows of R175. -/
def drawRowsBytes (base ox oy n : Nat) (m : Memory) : Except Fault DrawAcc :=
  (List.range n).foldlM (drawRowBytes base ox oy) (m, false)

/-- DRW by the byte-level form; no arm of exec calls it. -/
def drwByBytes (x y : Reg) (n : Fin 16) (s : State) : Out := drawWith drawRowsBytes x y n s

end Sys2Proof.Machine
end

