-- ==== Sys2Proof/Machine/Keys.lean ====
section
/-! DEFINITION. The key skips and the key-wait state machine (spec/44_keys.md). -/

namespace Sys2Proof.Machine

/-- SKP Vx, R190: an index above 15 raises its fault before any write (R195). -/
def execSkp (x : Reg) (s : State) : Out := settle do
  let k ← keyIndex (s.reg x)
  pure (s.skipIf (s.key k))

/-- SKNP Vx, R191. -/
def execSknp (x : Reg) (s : State) : Out := settle do
  let k ← keyIndex (s.reg x)
  pure (s.skipIf (!s.key k))

/-- Idle to Waiting, R193: the snapshot is taken and the PC does not advance. -/
def State.enterWait (s : State) : State := (s.setKeysPrev s.keys).setWaiting true

/-- The end of the wait, R194: the key's index, and the PC advances. -/
def State.leaveWait (s : State) (x : Reg) (k : Key) : State :=
  ((s.setReg x (BitVec.ofNat 8 k.val)).setWaiting false).advance

/-- LD Vx, K, R192. -/
def execLdK (x : Reg) (s : State) : Out :=
  if s.waiting then
    match firstChangedKey s.keys s.keysPrev with
    | none => .next s
    | some k => .next (s.leaveWait x k)
  else .next s.enterWait

end Sys2Proof.Machine
end

