-- ==== Sys2Proof/Machine/Transfer.lean ====
section
/-! DEFINITION. The register/timer/memory transfer group, class 0xF (spec/45_transfer.md). -/

namespace Sys2Proof.Machine

/-! ### Timers -/

/-- LD Vx, DT, R210. -/
def execLdVxDt (x : Reg) (s : State) : Out := .next (s.setReg x s.dt).advance

/-- LD DT, Vx, R211. -/
def execLdDtVx (x : Reg) (s : State) : Out := .next (s.setDt (s.reg x)).advance

/-- LD ST, Vx, R212. -/
def execLdStVx (x : Reg) (s : State) : Out := .next (s.setSt (s.reg x)).advance

/-! ### Address arithmetic -/

/-- ADD I, Vx, R213: the unbounded sum, the flag, then I := sum & 0xFFF. -/
def execAddI (x : Reg) (s : State) : Out :=
  let sum := s.i.toNat + (s.reg x).toNat
  .next ((s.setFlag (addressOverflowFlag sum)).setI (BitVec.ofNat 16 (sum % 0x1000))).advance

/-- LD F, Vx under a configuration, R215. -/
def ldFWith (c : Config) (x : Reg) (s : State) : Out :=
  match c.ldfPolicy with
  | .glyph => .next (s.setI (glyphAddress c (s.reg x))).advance
  | .noop => .next s.advance

/-- LD F, Vx under the machine's configuration. -/
def execLdF (x : Reg) (s : State) : Out := ldFWith config x s

/-! ### Memory transfers -/

/-- The check of R216, R217 and R218, before any write: the last byte lies at `base + last`, and the fault records 0x1000,
"the first address above memory". -/
def checkSpan (base last : Nat) : Except Fault Unit :=
  if 0xFFF < base + last then .error (.dataOutOfRange 0x1000) else .ok ()

/-- LD B, Vx, R216. -/
def execLdB (x : Reg) (s : State) : Out := settle do
  let a := s.reg x
  checkSpan s.i.toNat 2
  let m ← memWrite s.mem s.i.toNat (hundreds a)
  let m ← memWrite m (s.i.toNat + 1) (tens a)
  let m ← memWrite m (s.i.toNat + 2) (ones a)
  pure (s.setMem m).advance

/-- LD [I], Vx, R217: `for i in 0 .. x: MemWrite(I + i, 1, V[i])`. -/
def execLdMemVx (x : Reg) (s : State) : Out := settle do
  checkSpan s.i.toNat x.val
  let m ← (regsUpTo x).foldlM (fun m r => memWrite m (s.i.toNat + r.val) (s.reg r)) s.mem
  pure (s.setMem m).advance

/-- LD Vx, [I], R218: `for i in 0 .. x: V[i] <- MemRead(I + i, 1)`. -/
def execLdVxMem (x : Reg) (s : State) : Out := settle do
  checkSpan s.i.toNat x.val
  let v ← (regsUpTo x).foldlM
    (fun v r => do
      let b ← memRead s.mem (s.i.toNat + r.val)
      pure (v.set r b)) s.v
  pure (s.setRegs v).advance

end Sys2Proof.Machine
end

