-- ==== Sys2Proof/Machine/Step.lean ====
section
/-! DEFINITION. The cycle driver (spec/40_dispatch.md R100). -/

namespace Sys2Proof.Machine

/-- One step: a faulted machine has no enabled step (R107), else fetch, decode, execute. A meaning writes the next PC
itself, so the driver adds nothing (R103). -/
def step (s : State) : Host.Outcome State Fault Refusal :=
  match s.fault with
  | some r => .fault r
  | none =>
    match fetch s with
    | .error r => .fault r
    | .ok i => exec i s

/-- `s` with the instruction word stored where `step` fetches its next instruction (log 5). -/
def State.withFetchWord (s : State) (nbits w : Nat) : State := s.placeWord (w % 2 ^ nbits)

end Sys2Proof.Machine
end

