-- ==== Sys2Proof/Machine/OpcodeTable.lean ====
section
/-! DEFINITION. spec/opcode_table.json as data, written row by row from the table and not from the decoder, so that a claim
can hold the decoder against it; and the row and operands that a decoded instruction stands for. -/

namespace Sys2Proof

/-- A row: the words w with w & mask = pattern, and the fields, as (hi, lo) bit positions in the table's order. -/
structure OpcodeRow where
  mnemonic : String
  pattern : Nat
  mask : Nat
  fields : List (Nat × Nat)
  deriving DecidableEq, Repr

/-- x = 11:8, y = 7:4, n = 3:0, kk = 7:0, nnn = 11:0 (spec/30_encoding.md R72). -/
def bitsX : Nat × Nat := (11, 8)
def bitsY : Nat × Nat := (7, 4)
def bitsN : Nat × Nat := (3, 0)
def bitsKk : Nat × Nat := (7, 0)
def bitsNnn : Nat × Nat := (11, 0)

/-- Classes 0x0 to 0x7. -/
def opcodeRows0to7 : List OpcodeRow := [
  ⟨"CLS", 0x00E0, 0xF0FF, []⟩,
  ⟨"RET", 0x00EE, 0xF0FF, []⟩,
  ⟨"HOOK_0", 0x0000, 0xF000, [bitsNnn]⟩,
  ⟨"JP", 0x1000, 0xF000, [bitsNnn]⟩,
  ⟨"CALL", 0x2000, 0xF000, [bitsNnn]⟩,
  ⟨"SE_IMM", 0x3000, 0xF000, [bitsX, bitsKk]⟩,
  ⟨"SNE_IMM", 0x4000, 0xF000, [bitsX, bitsKk]⟩,
  ⟨"SE_REG", 0x5000, 0xF000, [bitsX, bitsY]⟩,
  ⟨"LD_IMM", 0x6000, 0xF000, [bitsX, bitsKk]⟩,
  ⟨"ADD_IMM", 0x7000, 0xF000, [bitsX, bitsKk]⟩]

/-- Class 0x8. -/
def opcodeRows8 : List OpcodeRow := [
  ⟨"LD_REG", 0x8000, 0xF00F, [bitsX, bitsY]⟩,
  ⟨"OR", 0x8001, 0xF00F, [bitsX, bitsY]⟩,
  ⟨"AND", 0x8002, 0xF00F, [bitsX, bitsY]⟩,
  ⟨"XOR", 0x8003, 0xF00F, [bitsX, bitsY]⟩,
  ⟨"ADD_REG", 0x8004, 0xF00F, [bitsX, bitsY]⟩,
  ⟨"SUB", 0x8005, 0xF00F, [bitsX, bitsY]⟩,
  ⟨"SHR", 0x8006, 0xF00F, [bitsX]⟩,
  ⟨"SUBN", 0x8007, 0xF00F, [bitsX, bitsY]⟩,
  ⟨"SHL", 0x800E, 0xF00F, [bitsX]⟩,
  ⟨"HOOK_8", 0x8000, 0xF000, []⟩]

/-- Classes 0x9 to 0xE. -/
def opcodeRows9toE : List OpcodeRow := [
  ⟨"SNE_REG", 0x9000, 0xF000, [bitsX, bitsY]⟩,
  ⟨"LD_I", 0xA000, 0xF000, [bitsNnn]⟩,
  ⟨"JP_V0", 0xB000, 0xF000, [bitsNnn]⟩,
  ⟨"RND", 0xC000, 0xF000, [bitsX, bitsKk]⟩,
  ⟨"DRW", 0xD000, 0xF000, [bitsX, bitsY, bitsN]⟩,
  ⟨"SKP", 0xE09E, 0xF0FF, [bitsX]⟩,
  ⟨"SKNP", 0xE0A1, 0xF0FF, [bitsX]⟩,
  ⟨"HOOK_E", 0xE000, 0xF000, []⟩]

/-- Class 0xF. -/
def opcodeRowsF : List OpcodeRow := [
  ⟨"LD_VX_DT", 0xF007, 0xF0FF, [bitsX]⟩,
  ⟨"LD_K", 0xF00A, 0xF0FF, [bitsX]⟩,
  ⟨"LD_DT_VX", 0xF015, 0xF0FF, [bitsX]⟩,
  ⟨"LD_ST_VX", 0xF018, 0xF0FF, [bitsX]⟩,
  ⟨"ADD_I", 0xF01E, 0xF0FF, [bitsX]⟩,
  ⟨"LD_F", 0xF029, 0xF0FF, [bitsX]⟩,
  ⟨"LD_B", 0xF033, 0xF0FF, [bitsX]⟩,
  ⟨"LD_MEM_VX", 0xF055, 0xF0FF, [bitsX]⟩,
  ⟨"LD_VX_MEM", 0xF065, 0xF0FF, [bitsX]⟩,
  ⟨"HOOK_F", 0xF000, 0xF000, []⟩]

/-- The 38 rows, in the table's order. -/
def opcodeRows : List OpcodeRow := opcodeRows0to7 ++ opcodeRows8 ++ opcodeRows9toE ++ opcodeRowsF

/-- Does a word match a row? -/
def OpcodeRow.matches (r : OpcodeRow) (w : Word) : Bool := w.toNat &&& r.mask == r.pattern

/-- The row of a word. The four hook rows stand after every other row of their class, so the first match is the row of R80:
"the hook row applies exactly when no other row of that class matches". -/
def rowOf (w : Word) : Option OpcodeRow := opcodeRows.find? (fun r => r.matches w)

/-- `w[hi:lo]` as a number (spec/00_scope.md R9). -/
def bitField (w : Word) (f : Nat × Nat) : Nat := w.toNat / 2 ^ f.2 % 2 ^ (f.1 - f.2 + 1)

/-- The row's mnemonic, for each constructor (LAWS.json). -/
def Instr.mnemonic : Instr → String
  | .cls => "CLS"
  | .ret => "RET"
  | .hook0 _ => "HOOK_0"
  | .jp _ => "JP"
  | .call _ => "CALL"
  | .seImm _ _ => "SE_IMM"
  | .sneImm _ _ => "SNE_IMM"
  | .seReg _ _ => "SE_REG"
  | .ldImm _ _ => "LD_IMM"
  | .addImm _ _ => "ADD_IMM"
  | .ldReg _ _ => "LD_REG"
  | .or _ _ => "OR"
  | .and _ _ => "AND"
  | .xor _ _ => "XOR"
  | .addReg _ _ => "ADD_REG"
  | .sub _ _ => "SUB"
  | .shr _ => "SHR"
  | .subn _ _ => "SUBN"
  | .shl _ => "SHL"
  | .hook8 _ => "HOOK_8"
  | .sneReg _ _ => "SNE_REG"
  | .ldI _ => "LD_I"
  | .jpV0 _ => "JP_V0"
  | .rnd _ _ => "RND"
  | .drw _ _ _ => "DRW"
  | .skp _ => "SKP"
  | .sknp _ => "SKNP"
  | .hookE _ => "HOOK_E"
  | .ldVxDt _ => "LD_VX_DT"
  | .ldK _ => "LD_K"
  | .ldDtVx _ => "LD_DT_VX"
  | .ldStVx _ => "LD_ST_VX"
  | .addI _ => "ADD_I"
  | .ldF _ => "LD_F"
  | .ldB _ => "LD_B"
  | .ldMemVx _ => "LD_MEM_VX"
  | .ldVxMem _ => "LD_VX_MEM"
  | .hookF _ => "HOOK_F"

/-- The operands the table gives the row, as numbers, in the order of its fields. The hooks of classes 8, E and F have
none. -/
def Instr.operands : Instr → List Nat
  | .cls | .ret | .hook8 _ | .hookE _ | .hookF _ => []
  | .hook0 nnn | .jp nnn | .call nnn | .ldI nnn | .jpV0 nnn => [nnn.toNat]
  | .seImm x kk | .sneImm x kk | .ldImm x kk | .addImm x kk | .rnd x kk => [x.val, kk.toNat]
  | .seReg x y | .sneReg x y => [x.val, y.val]
  | .ldReg x y | .or x y | .and x y | .xor x y | .addReg x y | .sub x y | .subn x y => [x.val, y.val]
  | .shr x | .shl x => [x.val]
  | .drw x y n => [x.val, y.val, n.val]
  | .skp x | .sknp x => [x.val]
  | .ldVxDt x | .ldK x | .ldDtVx x | .ldStVx x | .addI x | .ldF x | .ldB x | .ldMemVx x | .ldVxMem x => [x.val]

end Sys2Proof
end

