-- ==== Sys2Proof/Machine/Transactions.lean ====
section
/-! DEFINITION. The host interface (spec/60_exceptions.md R260, R261; spec/70_reset_and_hazards.md R280 to R284).
Construction is State.reset (R280). What the host may do before the first step is a BootAction, what it may do from then
on a HostEvent, so that no transaction can write memory after the first step (spec/92_eei_decisions.md D21).
The configuration and the random byte are "parameters of the step, not state" (spec/10_state.md R35): here they are arguments,
and Machine/Step.lean's step is the case of the default configuration and the model's own draw (log 2, log 4). -/

namespace Sys2Proof.Machine

/-! ### Before the first step -/

/-- `load(bytes)`, R282: byte i of the image goes to memory[0x200 + i]; an image longer than 0xEA0 - 0x200 bytes is
rejected (spec/90_conflicts.md C3, spec/93_implementation_defined.md U1). -/
def loadImage (image : List Byte) (s : State) : Out :=
  if 0xCA0 < image.length then .refused (.imageTooLong image.length)
  else .next (s.setMem (Memory.writeBytes s.mem 0x200 image))

/-- The optional font preload, R283: 16 glyphs of 5 bytes at FONT_BASE, below 0x200 (R261; log 11). -/
def loadFont (c : Config) (glyphs : List Byte) (s : State) : Out :=
  if glyphs.length = 80 ∧ c.fontBase + 80 ≤ 0x200 then
    .next (s.setMem (Memory.writeBytes s.mem c.fontBase glyphs))
  else .refused (.fontMisplaced glyphs.length)

/-- Digits 0 to 7 of the font of spec/93_implementation_defined.md G1, 5 bytes a digit. -/
def fontDigits0to7 : List Byte :=
  [0xF0, 0x90, 0x90, 0x90, 0xF0] ++ [0x20, 0x60, 0x20, 0x20, 0x70] ++ [0xF0, 0x10, 0xF0, 0x80, 0xF0] ++
  [0xF0, 0x10, 0xF0, 0x10, 0xF0] ++ [0x90, 0x90, 0xF0, 0x10, 0x10] ++ [0xF0, 0x80, 0xF0, 0x10, 0xF0] ++
  [0xF0, 0x80, 0xF0, 0x90, 0xF0] ++ [0xF0, 0x10, 0x20, 0x40, 0x40]

/-- Digits 8 to F. -/
def fontDigits8toF : List Byte :=
  [0xF0, 0x90, 0xF0, 0x90, 0xF0] ++ [0xF0, 0x90, 0xF0, 0x10, 0xF0] ++ [0xF0, 0x90, 0xF0, 0x90, 0x90] ++
  [0xE0, 0x90, 0xE0, 0x90, 0xE0] ++ [0xF0, 0x80, 0x80, 0x80, 0xF0] ++ [0xE0, 0x90, 0x90, 0x90, 0xE0] ++
  [0xF0, 0x80, 0xF0, 0x80, 0xF0] ++ [0xF0, 0x80, 0xF0, 0x80, 0x80]

/-- The conventional table "a host would use" for the preload (R283, G1: the spec's general knowledge). No step reads it; it is
an argument a host may give to loadFont. -/
def conventionalFont : List Byte := fontDigits0to7 ++ fontDigits8toF

/-- What the loader may do after construction and before the first step (R261, R284). -/
inductive BootAction where
  | load (image : List Byte)
  | font (glyphs : List Byte)
  deriving DecidableEq, Repr

def BootAction.apply (c : Config) : BootAction → State → Out
  | .load image, s => loadImage image s
  | .font glyphs, s => loadFont c glyphs s

/-! ### A step with its parameters -/

/-- An instruction under configuration c with the random draw r. LD F alone reads c (spec/45_transfer.md R215); of r, "Only RND
reads it" (spec/40_dispatch.md R108). -/
def execWith (c : Config) (r : Byte) (i : Instr) (s : State) : Out :=
  match i with
  | .rnd x kk => rndWith r x kk s
  | .ldF x => ldFWith c x s
  | other => exec other s

/-- `step(r)` under configuration c, R100: `step` with the configuration and the random byte given. -/
def stepWith (c : Config) (r : Byte) (s : State) : Out :=
  match s.fault with
  | some f => .fault f
  | none =>
    match fetch s with
    | .error f => .fault f
    | .ok i => execWith c r i s

/-- The Machine after a step, as the next transaction finds it: the next state, or the old one with the fault recorded
(R241: "makes no other state change"). A faulted machine keeps its fault (R107). -/
def afterStep (o : Out) (s : State) : State :=
  match o with
  | .next t => t
  | .fault f => s.raise f
  | .refused _ => s

/-! ### The timers, R250 -/

/-- One decrement "down to a floor of 0". -/
def countDown (b : Byte) : Byte := if b = 0 then 0 else b - 1

/-- `tick()`: both timers, between two steps (spec/92_eei_decisions.md D20). -/
def State.tick (s : State) : State := (s.setDt (countDown s.dt)).setSt (countDown s.st)

/-! ### From the first step on -/

/-- The transactions of R260 that may come between steps. -/
inductive HostEvent where
  /-- `step(r)`. -/
  | step (r : Byte)
  /-- `set_keys(k)`: K <- k. -/
  | setKeys (k : Vector Bool 16)
  /-- `tick()`. -/
  | tick
  /-- `write_timers(dt, st)`: DT and ST as "plain read/write fields". -/
  | writeTimers (dt st : Byte)
  /-- `read_state()`: no state change. -/
  | readState
  deriving DecidableEq, Repr

def HostEvent.apply (c : Config) : HostEvent → State → State
  | .step r, s => afterStep (stepWith c r s) s
  | .setKeys k, s => s.setKeys k
  | .tick, s => s.tick
  | .writeTimers dt st, s => (s.setDt dt).setSt st
  | .readState, s => s

/-- What the display sink reads: the 256 framebuffer bytes (R261, spec/10_state.md R34). -/
def State.framebuffer (s : State) : List Byte := framebufferAddrs.map (Memory.read s.mem)

end Sys2Proof.Machine
end

