-- ==== Sys2Proof/Safety.lean ====
section
/-! DEFINITION. What counts as a safe run and what every reachable state meets, in the terms claims use. -/

namespace Sys2Proof.Machine

/-- A run of k steps that "no fault is reached" in (spec/60_exceptions.md R243). -/
def SafeRun (k : Nat) (s : State) : Prop := ∃ t, Host.Core.run core k s = .next t

/-- The machine can take a step: it is not stuck, not out of memory at the fetch, and the instruction raises nothing. -/
def Enabled (s : State) : Prop := ∃ t, step s = .next t

/-- The invariant of the machine: memory keeps its canonical form, I[15:12] = 0 (spec/10_state.md R24), SP is even
(R26). -/
def State.Inv (s : State) : Prop :=
  Memory.wf s.mem = true ∧ s.i.toNat ≤ 0xFFF ∧ s.sp.toNat % 2 = 0

/-- A waiting machine stands at an LD Vx, K, "the same LD Vx, K that set the flag" (spec/40_dispatch.md R109). -/
def State.WaitsAtKeyWait (s : State) : Prop := s.waiting = true → ∃ x, fetch s = .ok (.ldK x)

/-- The states before the first step, under configuration c: construction, then what the loader does
(spec/70_reset_and_hazards.md R284; log 11). -/
inductive Booted (c : Config) : State → Prop where
  | construct : Booted c State.reset
  | boot {s t : State} (a : BootAction) (h : Booted c s) (ha : a.apply c s = .next t) : Booted c t

/-- The states a run reaches: a booted machine and then any transactions of the host, its steps among them
(spec/60_exceptions.md R260, R261; log 13). -/
inductive Reachable (c : Config) : State → Prop where
  | start {s : State} (h : Booted c s) : Reachable c s
  | event {s : State} (e : HostEvent) (h : Reachable c s) : Reachable c (e.apply c s)

end Sys2Proof.Machine

/-! ## The vocabulary of the statements -/

namespace Sys2Proof.Claims

open Sys2Proof.Machine

/-! ### What an instruction leaves unchanged -/

/-- Every byte of memory reads as before. -/
def KeepsMemory (s t : State) : Prop := ∀ a, Memory.read t.mem a = Memory.read s.mem a

/-- Every byte outside the addresses P reads as before. -/
def KeepsMemoryOutside (P : Nat → Prop) (s t : State) : Prop := ∀ a, ¬P a → Memory.read t.mem a = Memory.read s.mem a

/-- Every general register holds what it held. -/
def KeepsRegs (s t : State) : Prop := ∀ r, t.reg r = s.reg r

/-- I and SP. -/
def KeepsPointers (s t : State) : Prop := t.i = s.i ∧ t.sp = s.sp

/-- DT and ST. -/
def KeepsTimers (s t : State) : Prop := t.dt = s.dt ∧ t.st = s.st

/-- K, K_prev and waiting. -/
def KeepsKeys (s t : State) : Prop := t.keys = s.keys ∧ t.keysPrev = s.keysPrev ∧ t.waiting = s.waiting

/-- The model-only fault and the model's own count of draws. -/
def KeepsModelFields (s t : State) : Prop := t.fault = s.fault ∧ t.draws = s.draws

/-- Everything but memory, the general registers and the PC. -/
def KeepsSpecials (s t : State) : Prop :=
  KeepsPointers s t ∧ KeepsTimers s t ∧ KeepsKeys s t ∧ KeepsModelFields s t

/-- Everything but the PC. -/
def KeepsAllButPc (s t : State) : Prop := KeepsMemory s t ∧ KeepsRegs s t ∧ KeepsSpecials s t

/-! ### The shapes of the register instructions -/

/-- The instruction completes: the PC moves on by 2, V[x] takes the value, nothing else changes. -/
def WritesReg (o : Out) (s : State) (x : Reg) (value : Byte) : Prop :=
  ∃ t, o = .next t ∧ t.pc = s.pc + 2 ∧ (∀ r, t.reg r = if r = x then value else s.reg r) ∧
    KeepsMemory s t ∧ KeepsSpecials s t

/-- The instruction completes: V[15] takes the flag 0 or 1, then V[x] takes the value (so that V[15] holds the value when x is
15), the PC moves on by 2, nothing else changes. -/
def WritesFlagThenReg (o : Out) (s : State) (x : Reg) (flag : Bool) (value : Byte) : Prop :=
  ∃ t, o = .next t ∧ t.pc = s.pc + 2 ∧
    (∀ r, t.reg r = if r = x then value else if r = 15 then (if flag then 1 else 0) else s.reg r) ∧
    KeepsMemory s t ∧ KeepsSpecials s t

/-- The instruction completes with the given PC, and nothing else changes. -/
def OnlyMovesPc (o : Out) (s : State) (pc : Word) : Prop := ∃ t, o = .next t ∧ t.pc = pc ∧ KeepsAllButPc s t

/-! ### Which instruction may write what -/

/-- The instructions of spec/10_state.md R22 that write a flag into V[15]. -/
def writesFlag : Instr → Bool
  | .addReg _ _ | .sub _ _ | .shr _ | .subn _ _ | .shl _ | .drw _ _ _ | .addI _ => true
  | _ => false

/-- Is r a register the instruction's x field names as its destination (R21)? -/
def isDestination (r : Reg) : Instr → Bool
  | .ldImm x _ | .addImm x _ | .rnd x _ | .ldVxDt x | .ldK x => r == x
  | .ldReg x _ | .or x _ | .and x _ | .xor x _ | .addReg x _ | .sub x _ | .subn x _ => r == x
  | .shr x | .shl x => r == x
  | .ldVxMem x => decide (r ≤ x)
  | _ => false

/-- The writers of I (R23). -/
def writesI : Instr → Bool
  | .ldI _ | .addI _ | .ldF _ => true
  | _ => false

/-- The writers of SP (R26). -/
def writesSp : Instr → Bool
  | .call _ | .ret => true
  | _ => false

/-- The writers of memory (R36). -/
def writesMemory : Instr → Bool
  | .cls | .call _ | .drw _ _ _ | .ldB _ | .ldMemVx _ => true
  | _ => false

/-- The skip instructions (spec/40_dispatch.md R104). -/
def isSkip : Instr → Bool
  | .seImm _ _ | .sneImm _ _ | .seReg _ _ | .sneReg _ _ | .skp _ | .sknp _ => true
  | _ => false

/-- The instructions whose rule sets the PC to a target (R25). -/
def isJump : Instr → Bool
  | .jp _ | .call _ | .ret | .jpV0 _ => true
  | _ => false

/-- The instructions that check a data address (spec/60_exceptions.md R240, code 2). -/
def checksData : Instr → Bool
  | .drw _ _ _ | .ldB _ | .ldMemVx _ | .ldVxMem _ => true
  | _ => false

/-! ### The display -/

/-- The pixel at column px and row py of a memory (spec/10_state.md R34): bit 7 - (px mod 8) of the byte at
0xF00 + 8*py + (px div 8). -/
def lit (m : Memory) (px py : Nat) : Bool := (Memory.read m (0xF00 + 8 * py + px / 8)).getLsbD (7 - px % 8)

/-- Does the sprite byte set column c of its row, and does that column land on (px, py), when drawn at (ox, oy)
(spec/43_draw.md R170, R171)? -/
abbrev Covers (sprite : Byte) (ox oy px py : Nat) : Prop :=
  py = oy % 32 ∧ ∃ c, c < 8 ∧ sprite.getLsbD (7 - c) = true ∧ px = (ox + c) % 64

/-- m' is m with one sprite row, the byte at a, XORed in at (ox, oy): the covered pixels toggle, every other pixel and every
byte outside the framebuffer is kept. -/
def RowDrawn (m m' : Memory) (a ox oy : Nat) : Prop :=
  (∀ px py, px < 64 → py < 32 → Covers (Memory.read m a) ox oy px py → lit m' px py = !lit m px py) ∧
  (∀ px py, px < 64 → py < 32 → ¬Covers (Memory.read m a) ox oy px py → lit m' px py = lit m px py) ∧
  ∀ b, (b < 0xF00 ∨ 0xFFF < b) → Memory.read m' b = Memory.read m b

end Sys2Proof.Claims
end

