-- ==== Sys2Proof/WellFormed.lean ====
section
/-! DEFINITION. Which terms of Instr are instructions. Registers, keys and row counts are bounded by their types; what is
left to check is that a hook's word is one that reaches the hook (spec/30_encoding.md R86). -/

namespace Sys2Proof

/-- Class 0 hook words: byte 1 is neither 0xE0 nor 0xEE (R81, R86). -/
def hook0Word (nnn : Addr) : Bool := [0xE0, 0xEE].all (fun k => nnn.toNat % 256 != k)

/-- Class 8 hook words: n is one of 8, 9, A, B, C, D, F (R82, R86). -/
def hook8Word (low : Addr) : Bool := [0x8, 0x9, 0xA, 0xB, 0xC, 0xD, 0xF].contains (low.toNat % 16)

/-- Class E hook words: byte 1 is neither 0x9E nor 0xA1 (R83, R86). -/
def hookEWord (low : Addr) : Bool := [0x9E, 0xA1].all (fun k => low.toNat % 256 != k)

/-- Class F hook words: byte 1 is none of the nine sub-opcodes (R83, R86). -/
def hookFWord (low : Addr) : Bool :=
  [0x07, 0x0A, 0x15, 0x18, 0x1E, 0x29, 0x33, 0x55, 0x65].all (fun k => low.toNat % 256 != k)

/-- A well-formed instruction: a hook constructor holds the low bits of a hook word; every other constructor is well
formed at every operand (R73: "every value 0..15 is a valid register index"). -/
def Instr.wellFormed : Instr → Bool
  | .hook0 nnn => hook0Word nnn
  | .hook8 low => hook8Word low
  | .hookE low => hookEWord low
  | .hookF low => hookFWord low
  | .cls | .ret => true
  | .jp _ | .call _ | .ldI _ | .jpV0 _ => true
  | .seImm _ _ | .sneImm _ _ | .ldImm _ _ | .addImm _ _ | .rnd _ _ => true
  | .seReg _ _ | .sneReg _ _ => true
  | .ldReg _ _ | .or _ _ | .and _ _ | .xor _ _ | .addReg _ _ | .sub _ _ | .subn _ _ => true
  | .shr _ | .shl _ => true
  | .drw _ _ _ => true
  | .skp _ | .sknp _ => true
  | .ldVxDt _ | .ldK _ | .ldDtVx _ | .ldStVx _ | .addI _ | .ldF _ | .ldB _ | .ldMemVx _ | .ldVxMem _ => true

end Sys2Proof
end

