-- ==== Sys2Proof/Certificates/Slice0/Obligations.lean ====
section
/-! DEFINITION. The statements for the provers, from the numbered rules of spec/. Each docstring names the rule it formalises;
where a clause rests on a decision that spec/92_eei_decisions.md marks as its own (D<n>), or on a log entry, the docstring
says so and the statement's basis is 'derived'. A rule of an instruction also gives its word: the statement says which words
decode to it, hex digit by hex digit (formatAddr, formatXKk, formatXYN of Decode.lean), ignored digits at every value. -/

open Sys2Proof Sys2Proof.Machine Sys2Proof.Claims

/-! ## Reset, the step, faults -/

/-- R40: what construction leaves. That `fault` is none is the spec's own decision D2. -/
def Obligations.ResetStateIsTheConstructionState : Prop :=
  (∀ a, Memory.read State.reset.mem a = 0) ∧ (∀ r, State.reset.reg r = 0) ∧ State.reset.i = 0 ∧
  State.reset.pc = 0x200 ∧ State.reset.sp = 0 ∧ State.reset.dt = 0 ∧ State.reset.st = 0 ∧
  (∀ k, State.reset.key k = false) ∧ (∀ k : Key, State.reset.keysPrev[k] = false) ∧
  State.reset.waiting = false ∧ State.reset.fault = none

/-- The invariant holds after construction (R24, R26, R109 at reset). -/
def Obligations.ResetMeetsTheInvariant : Prop := State.reset.Inv ∧ State.reset.WaitsAtKeyWait

/-- R24 and R26 as an invariant of one step, with the canonical form of memory, and R109 as another: a machine that waits stands
at an LD Vx, K after the step if it did before. Both for the machine's step and for a step under any admissible configuration
with any random byte (derived; R109 by D24, the bound on FONT_BASE by D14). -/
def Obligations.StepKeepsTheInvariant : Prop :=
  ∀ s t, (step s = .next t ∨ ∃ c r, c.wf = true ∧ stepWith c r s = .next t) →
    (s.Inv → t.Inv) ∧ (s.WaitsAtKeyWait → t.WaitsAtKeyWait)

/-- R24, R26 and R109 under every transaction of the host, a step that faults among them: what the host may do is read from
R260 and R261 (D21; log 13). -/
def Obligations.EveryTransactionKeepsTheInvariant : Prop :=
  ∀ (c : Config) (e : HostEvent) s, c.wf = true →
    (s.Inv → (e.apply c s).Inv) ∧ (s.WaitsAtKeyWait → (e.apply c s).WaitsAtKeyWait)

/-- R24, R26 and R109 for every state that the loader, the steps (with any random bytes) and the other host transactions reach
from construction, under every admissible configuration. The order of loads is log 11's, the transactions log 13's. -/
def Obligations.ReachableStatesMeetTheInvariant : Prop :=
  ∀ (c : Config) s, c.wf = true → Reachable c s → s.Inv ∧ s.WaitsAtKeyWait

/-- R100: a machine with no fault and PC at most 0xFFE runs the instruction that the two bytes at PC and PC + 1 decode to, with
nothing added around it (R103), whatever configuration and random byte are supplied (R35, R108), and the step transaction
leaves the state the step answers (log 1). The machine's own step is the case of the default configuration and its own draw
(log 2, log 4). -/
def Obligations.StepRunsTheDecodedInstruction : Prop :=
  ∀ (c : Config) r s, step s = stepWith config s.draw s ∧
    (∀ t, stepWith c r s = .next t → (HostEvent.step r).apply c s = t) ∧
    (s.fault = none → s.pc.toNat ≤ 0xFFE →
      let i := decode (Memory.read s.mem s.pc.toNat) (Memory.read s.mem (s.pc.toNat + 1))
      step s = exec i s ∧ stepWith c r s = execWith c r i s)

/-- R101 and R107: a fetch from beyond 0xFFE stops with FetchOutOfRange(PC); a faulted machine has no enabled step, and a step
transaction leaves it as it is. Both are the spec's own decisions D2 and D4 (log 1). -/
def Obligations.FaultedOrLostMachineDoesNotStep : Prop :=
  (∀ s, s.fault = none → 0xFFE < s.pc.toNat → step s = .fault (.fetchOutOfRange s.pc) ∧
    ∀ c r, stepWith c r s = .fault (.fetchOutOfRange s.pc)) ∧
  ∀ s f, s.fault = some f → step s = .fault f ∧
    ∀ c r, stepWith c r s = .fault f ∧ (HostEvent.step r).apply c s = s

/-- R241 and R107: a step that faults records its reason and changes nothing else, K, DT and ST included; from then on, whatever
the host does, the fault stays and only K, DT and ST can change (decision D2; that the host may write them then is log 13). -/
def Obligations.FaultsArePreciseAndSticky : Prop :=
  ∀ (c : Config) s r f (es : List HostEvent), stepWith c r s = .fault f →
    let faulted := (HostEvent.step r).apply c s
    let u := es.foldl (fun u e => e.apply c u) faulted
    faulted = { s with fault := some f } ∧ u.fault = some f ∧ u.mem = s.mem ∧ u.v = s.v ∧ u.i = s.i ∧ u.pc = s.pc ∧ u.sp = s.sp ∧
      u.keysPrev = s.keysPrev ∧ u.waiting = s.waiting ∧ u.draws = s.draws

/-- R240: which instruction can raise what, and that no instruction is refused (decisions D2, D3, D12). -/
def Obligations.OnlyCheckedAccessesFault : Prop :=
  ∀ i s, (∃ t, exec i s = .next t) ∨
    (checksData i = true ∧ ∃ a, 0xFFF < a ∧ exec i s = .fault (.dataOutOfRange a)) ∨
    (∃ x, (i = .skp x ∨ i = .sknp x) ∧ 15 < (s.reg x).toNat ∧ exec i s = .fault (.keyIndexOutOfRange (s.reg x)))

/-- R242: every DataOutOfRange records 0x1000, in every state with I at most 0xFFF (decision D3). -/
def Obligations.DataFaultsRecordTheFirstAddressAboveMemory : Prop :=
  ∀ i s a, s.Inv → exec i s = .fault (.dataOutOfRange a) → a = 0x1000

/-! ## Encoding -/

/-- Decoding the word, and the bytes, of a well-formed instruction gives it back, with every operand at every value
(R72, R73, R80). -/
def Obligations.DecodeInvertsEncode : Prop :=
  ∀ i : Instr, i.wellFormed = true →
    decodeWord (encode i) = i ∧ ∀ rest, decodeBytes (encodeBytes i ++ rest) = .ok (i, rest)

/-- R80 to R83: each of the 65536 words matches a row of the opcode table, decodes to that row's operation with exactly the
operand fields the row gives, and to a well-formed instruction. That CLS and RET match at every x is decision D9 (R81); that a
hook holds its word's low bits, which the table gives the class 0 row alone, is log 10. -/
def Obligations.DecoderAgreesWithTheOpcodeTable : Prop :=
  ∀ w, ∃ row, rowOf w = some row ∧ (decodeWord w).mnemonic = row.mnemonic ∧
    (decodeWord w).operands = row.fields.map (bitField w) ∧ (decodeWord w).wellFormed = true

/-- R85: bits an operation does not use are ignored, so that a word that differs only there decodes alike: x of CLS and RET, y
of SHR and SHL, n of SE Vx, Vy and SNE Vx, Vy (derived; D9 for CLS and RET). -/
def Obligations.IgnoredBitsDoNotMatter : Prop :=
  ∀ x y n : Fin 16,
    decodeWord (formatXKk 0x0 x 0xE0) = .cls ∧ decodeWord (formatXKk 0x0 x 0xEE) = .ret ∧
    decodeWord (formatXYN 0x8 x y 0x6) = .shr x ∧ decodeWord (formatXYN 0x8 x y 0xE) = .shl x ∧
    decodeWord (formatXYN 0x5 x y n) = .seReg x y ∧ decodeWord (formatXYN 0x9 x y n) = .sneReg x y

/-- R89: the spec's own decode examples. -/
def Obligations.DecodeExamplesOfTheSpec : Prop :=
  decodeTableWord 16 0xD011 = some (.drw 0 1 1) ∧ decodeTableWord 16 0x8014 = some (.addReg 0 1) ∧
  decodeTableWord 16 0x6005 = some (.ldImm 0 0x05) ∧ decodeTableWord 16 0x2ABC = some (.call 0xABC) ∧
  decodeTableWord 16 0xF265 = some (.ldVxMem 2) ∧ decodeTableWord 16 0x0123 = some (.hook0 0x123) ∧
  decodeTableWord 16 0x8008 = some (.hook8 0x008) ∧ decodeTableWord 16 0x5121 = some (.seReg 1 2)

/-- R65 and R70: a word stored at the PC, first byte high, is what the next step runs. -/
def Obligations.StepRunsTheWordPlacedAtThePc : Prop :=
  ∀ (i : Instr) (s : State), i.wellFormed = true → s.fault = none → s.pc.toNat ≤ 0xFFE →
    let placed := s.withFetchWord 16 (encode i).toNat
    step placed = exec i placed ∧ placed.pc = s.pc ∧ KeepsRegs s placed ∧ KeepsSpecials s placed ∧
      KeepsMemoryOutside (fun a => a = s.pc.toNat ∨ a = s.pc.toNat + 1) s placed

/-! ## Class 8 -/

/-- R152, R153, R154: LD, OR and AND write V[x] alone; VF is not touched unless x is 15. -/
def Obligations.MoveOrAndResults : Prop :=
  ∀ x y s, WritesReg (exec (.ldReg x y) s) s x (s.reg y) ∧
    WritesReg (exec (.or x y) s) s x (s.reg x ||| s.reg y) ∧
    WritesReg (exec (.and x y) s) s x (s.reg x &&& s.reg y) ∧
    decodeWord (formatXYN 0x8 x y 0x0) = .ldReg x y ∧ decodeWord (formatXYN 0x8 x y 0x1) = .or x y ∧
    decodeWord (formatXYN 0x8 x y 0x2) = .and x y

/-- R160: XOR is a clean bitwise operation that leaves VF alone (decision D16, spec/90_conflicts.md C6). -/
def Obligations.XorResult : Prop :=
  ∀ x y s, WritesReg (exec (.xor x y) s) s x (s.reg x ^^^ s.reg y) ∧ decodeWord (formatXYN 0x8 x y 0x3) = .xor x y

/-- R155: ADD Vx, Vy: the carry of the unbounded sum, then the sum modulo 256. The modulus is decision D15; that the flag is written
first, so that x = 15 holds the sum, and that y = 15 adds the old VF, is decision D8 (R151, C4; log 9). -/
def Obligations.AddWritesCarryThenSum : Prop :=
  ∀ x y s, WritesFlagThenReg (exec (.addReg x y) s) s x
    (decide (255 < (s.reg x).toNat + (s.reg y).toNat))
    (BitVec.ofNat 8 (((s.reg x).toNat + (s.reg y).toNat) % 256)) ∧
    decodeWord (formatXYN 0x8 x y 0x4) = .addReg x y

/-- R156 and R158: not-borrow by strict comparison, then the difference modulo 256. That the flag is written first, so that x = 15
holds the difference, is decision D8 (R151, C4; log 9). -/
def Obligations.SubtractionsWriteNotBorrowThenDifference : Prop :=
  ∀ x y s, WritesFlagThenReg (exec (.sub x y) s) s x
      (decide ((s.reg x).toNat > (s.reg y).toNat))
      (BitVec.ofNat 8 (((s.reg x).toNat + 256 - (s.reg y).toNat) % 256)) ∧
    WritesFlagThenReg (exec (.subn x y) s) s x
      (decide ((s.reg y).toNat > (s.reg x).toNat))
      (BitVec.ofNat 8 (((s.reg y).toNat + 256 - (s.reg x).toNat) % 256)) ∧
    decodeWord (formatXYN 0x8 x y 0x5) = .sub x y ∧ decodeWord (formatXYN 0x8 x y 0x7) = .subn x y

/-- R157 and R159: the bit shifted out, then the shifted value; V[y] is not read. That the flag is written first, so that x = 15
holds the shifted value, is decision D8 (R151; log 9); the words at every y are R85's (derived). -/
def Obligations.ShiftsWriteTheBitShiftedOut : Prop :=
  ∀ x s, WritesFlagThenReg (exec (.shr x) s) s x
      (decide ((s.reg x).toNat % 2 = 1)) (BitVec.ofNat 8 ((s.reg x).toNat / 2)) ∧
    WritesFlagThenReg (exec (.shl x) s) s x
      (decide ((s.reg x).toNat / 128 % 2 = 1)) (BitVec.ofNat 8 ((s.reg x).toNat * 2 % 256)) ∧
    ∀ y, decodeWord (formatXYN 0x8 x y 0x6) = .shr x ∧ decodeWord (formatXYN 0x8 x y 0xE) = .shl x

/-! ## Class-level operations -/

/-- R120: CLS zeroes the 256 framebuffer bytes and keeps every other byte. That it is CLS at every x is decision D9 (R81; log 9). -/
def Obligations.ClsZeroesExactlyTheFramebuffer : Prop :=
  (∀ s, ∃ t, exec .cls s = .next t ∧ t.pc = s.pc + 2 ∧
    (∀ a, 0xF00 ≤ a → a ≤ 0xFFF → Memory.read t.mem a = 0) ∧
    KeepsMemoryOutside (fun a => 0xF00 ≤ a ∧ a ≤ 0xFFF) s t ∧ KeepsRegs s t ∧ KeepsSpecials s t) ∧
  ∀ x, decodeWord (formatXKk 0x0 x 0xE0) = .cls

/-- R123: JP. -/
def Obligations.JpSetsThePc : Prop :=
  ∀ (nnn : Addr) s, OnlyMovesPc (exec (.jp nnn) s) s (BitVec.ofNat 16 nnn.toNat) ∧
    decodeWord (formatAddr 0x1 nnn) = .jp nnn

/-- R134: JP V0 is not reduced to 12 bits (decision D5). -/
def Obligations.JpV0AddsWithoutReduction : Prop :=
  ∀ (nnn : Addr) s, OnlyMovesPc (exec (.jpV0 nnn) s) s (BitVec.ofNat 16 ((s.reg 0).toNat + nnn.toNat))

/-- R122 and R27: CALL stores the whole return address at 0xEA0 + SP, high byte first, adds 2 to SP modulo 256 and jumps
(decisions D6, D7). -/
def Obligations.CallPushesTheReturnAddress : Prop :=
  ∀ (nnn : Addr) s, ∃ t, exec (.call nnn) s = .next t ∧ t.pc = BitVec.ofNat 16 nnn.toNat ∧
    t.sp = BitVec.ofNat 8 ((s.sp.toNat + 2) % 256) ∧
    Memory.read t.mem (0xEA0 + s.sp.toNat) = BitVec.ofNat 8 ((s.pc + 2).toNat / 256) ∧
    Memory.read t.mem (0xEA0 + s.sp.toNat + 1) = BitVec.ofNat 8 ((s.pc + 2).toNat % 256) ∧
    KeepsMemoryOutside (fun a => a = 0xEA0 + s.sp.toNat ∨ a = 0xEA0 + s.sp.toNat + 1) s t ∧
    KeepsRegs s t ∧ t.i = s.i ∧ KeepsTimers s t ∧ KeepsKeys s t ∧ KeepsModelFields s t

/-- R121 and R27: RET subtracts 2 from SP modulo 256 and takes the PC from the slot there, underflow included (decisions D6,
D7). -/
def Obligations.RetPopsTheReturnAddress : Prop :=
  ∀ s, ∃ t, exec .ret s = .next t ∧ t.sp.toNat = (s.sp.toNat + 254) % 256 ∧
    t.pc.toNat = (Memory.read s.mem (0xEA0 + t.sp.toNat)).toNat * 256 +
      (Memory.read s.mem (0xEA0 + t.sp.toNat + 1)).toNat ∧
    KeepsMemory s t ∧ KeepsRegs s t ∧ t.i = s.i ∧ KeepsTimers s t ∧ KeepsKeys s t ∧ KeepsModelFields s t

/-- spec/95_test_vectors.md L1-7: a RET in any later state with the SP that CALL left and an untouched slot returns to the
instruction after the CALL and to the SP before it. -/
def Obligations.CallThenRetReturns : Prop :=
  ∀ (nnn : Addr) s t u, exec (.call nnn) s = .next t → u.sp = t.sp →
    Memory.read u.mem (0xEA0 + s.sp.toNat) = Memory.read t.mem (0xEA0 + s.sp.toNat) →
    Memory.read u.mem (0xEA0 + s.sp.toNat + 1) = Memory.read t.mem (0xEA0 + s.sp.toNat + 1) →
    ∃ v, exec .ret u = .next v ∧ v.pc = s.pc + 2 ∧ v.sp = s.sp

/-- R124, R125, R126, R129: the four skips move the PC by 4 when their condition holds and by 2 otherwise, and change nothing
else. -/
def Obligations.SkipsCompareAndMoveThePc : Prop :=
  ∀ (x y : Reg) (kk : Byte) s,
    OnlyMovesPc (exec (.seImm x kk) s) s (s.pc + if s.reg x = kk then 4 else 2) ∧
    OnlyMovesPc (exec (.sneImm x kk) s) s (s.pc + if s.reg x ≠ kk then 4 else 2) ∧
    OnlyMovesPc (exec (.seReg x y) s) s (s.pc + if s.reg x = s.reg y then 4 else 2) ∧
    OnlyMovesPc (exec (.sneReg x y) s) s (s.pc + if s.reg x ≠ s.reg y then 4 else 2) ∧
    decodeWord (formatXKk 0x3 x kk) = .seImm x kk ∧ decodeWord (formatXKk 0x4 x kk) = .sneImm x kk ∧
    ∀ n, decodeWord (formatXYN 0x5 x y n) = .seReg x y ∧ decodeWord (formatXYN 0x9 x y n) = .sneReg x y

/-- R127 and R128: LD Vx, kk and ADD Vx, kk; neither writes a flag. -/
def Obligations.ImmediateLoadAndAdd : Prop :=
  ∀ x (kk : Byte) s, WritesReg (exec (.ldImm x kk) s) s x kk ∧
    WritesReg (exec (.addImm x kk) s) s x (BitVec.ofNat 8 (((s.reg x).toNat + kk.toNat) % 256)) ∧
    decodeWord (formatXKk 0x6 x kk) = .ldImm x kk ∧ decodeWord (formatXKk 0x7 x kk) = .addImm x kk

/-- R133: LD I, addr. -/
def Obligations.LdISetsTheAddressRegister : Prop :=
  ∀ (nnn : Addr) s, ∃ t, exec (.ldI nnn) s = .next t ∧ t.pc = s.pc + 2 ∧ t.i.toNat = nnn.toNat ∧
    KeepsMemory s t ∧ KeepsRegs s t ∧ t.sp = s.sp ∧ KeepsTimers s t ∧ KeepsKeys s t ∧ KeepsModelFields s t ∧
    decodeWord (formatAddr 0xA nnn) = .ldI nnn

/-- R135: RND with any random byte r writes r & kk under every configuration; the draw itself is decision D17 (R136). The
instruction of exec is the one with the step's free value, and everything but V[x], the PC and the model's count of draws is
kept: both are the model's choice (log 2). -/
def Obligations.RndMasksTheDraw : Prop :=
  ∀ x (kk : Byte) s,
    (∀ (c : Config) r, ∃ t, execWith c r (.rnd x kk) s = .next t ∧ t.pc = s.pc + 2 ∧
      (∀ q, t.reg q = if q = x then r &&& kk else s.reg q) ∧ KeepsMemory s t ∧ KeepsPointers s t ∧
      KeepsTimers s t ∧ KeepsKeys s t ∧ t.fault = s.fault) ∧
    (∃ r t, exec (.rnd x kk) s = execWith config r (.rnd x kk) s ∧ exec (.rnd x kk) s = .next t) ∧
    decodeWord (formatXKk 0xC x kk) = .rnd x kk

/-- R108: the step of any other operation does not depend on the random byte, under any configuration (decision D17). -/
def Obligations.OnlyRndReadsTheDraw : Prop :=
  ∀ s r, (∀ x kk, fetch s ≠ .ok (.rnd x kk)) →
    stepWith config r s = step s ∧ ∀ (c : Config) r', stepWith c r' s = stepWith c r s

/-- R7, R35, R215: the step of any operation but LD F is the same under every configuration (decision D14 for the parameter). -/
def Obligations.OnlyLdFReadsTheConfiguration : Prop :=
  ∀ s r (c c' : Config), (∀ x, fetch s ≠ .ok (.ldF x)) → stepWith c r s = stepWith c' r s

/-- R110: a hook word of any of the four classes moves the PC on by 2 and does nothing else. -/
def Obligations.HooksOnlyAdvanceThePc : Prop :=
  ∀ (low : Addr) s, OnlyMovesPc (exec (.hook0 low) s) s (s.pc + 2) ∧
    OnlyMovesPc (exec (.hook8 low) s) s (s.pc + 2) ∧ OnlyMovesPc (exec (.hookE low) s) s (s.pc + 2) ∧
    OnlyMovesPc (exec (.hookF low) s) s (s.pc + 2)

/-- R262: a self-jump idles for ever, every step of it leaving the state unchanged. -/
def Obligations.SelfJumpIdlesForEver : Prop :=
  ∀ (nnn : Addr) s k, s.fault = none → s.pc = BitVec.ofNat 16 nnn.toNat → fetch s = .ok (.jp nnn) →
    Host.Core.run core k s = .next s

/-! ## Sprite draw -/

/-- R172, R173: when the sprite lies in memory, DRW completes; there are memories m 0, ..., m n, from the old one to the new
one, each the one before it with the row of the byte at I + r (read from the memory the rows before have left) XORed in at
(V[x], V[y] + r); V[15] is 1 exactly when some set sprite bit met a lit pixel, and 0 otherwise (decisions D10, D11). -/
def Obligations.DrwDrawsRowAfterRow : Prop :=
  ∀ (x y : Reg) (n : Fin 16) s, (∀ r, r < n.val → s.i.toNat + r ≤ 0xFFF) →
    ∃ t, ∃ m : Nat → Memory, exec (.drw x y n) s = .next t ∧ m 0 = s.mem ∧ m n.val = t.mem ∧
      (∀ r, r < n.val → RowDrawn (m r) (m (r + 1)) (s.i.toNat + r) (s.reg x).toNat ((s.reg y).toNat + r)) ∧
      ((t.reg 15 = 1 ∧ ∃ r px py, r < n.val ∧ px < 64 ∧ py < 32 ∧ lit (m r) px py = true ∧
          Covers (Memory.read (m r) (s.i.toNat + r)) (s.reg x).toNat ((s.reg y).toNat + r) px py) ∨
        (t.reg 15 = 0 ∧ ¬∃ r px py, r < n.val ∧ px < 64 ∧ py < 32 ∧ lit (m r) px py = true ∧
          Covers (Memory.read (m r) (s.i.toNat + r)) (s.reg x).toNat ((s.reg y).toNat + r) px py)) ∧
      t.pc = s.pc + 2 ∧ (∀ r, r ≠ 15 → t.reg r = s.reg r) ∧ KeepsSpecials s t

/-- R172 and R55: a sprite that runs out of memory stops the draw before any write, recording the first address above 0xFFF
(decisions D2, D3). -/
def Obligations.DrwOutOfMemoryFaults : Prop :=
  ∀ (x y : Reg) (n : Fin 16) s r, r < n.val → 0xFFF < s.i.toNat + r → (∀ q, q < r → s.i.toNat + q ≤ 0xFFF) →
    exec (.drw x y n) s = .fault (.dataOutOfRange (s.i.toNat + r))

/-- R174: DRW with n = 0 writes V[15] = 0 and nothing else, whatever I is (derived). -/
def Obligations.DrwOfNoRowsClearsTheFlag : Prop :=
  ∀ (x y : Reg) s, WritesReg (exec (.drw x y 0) s) s 15 0

/-- R175: the byte-level form gives the same answer as the pixel loop in every state of canonical memory; each form reads
row r's byte after the rows before it are written, so the equality needs no premise on where the sprite lies (derived). -/
def Obligations.DrwEqualsItsByteLevelForm : Prop :=
  ∀ (x y : Reg) (n : Fin 16) s, Memory.wf s.mem = true → exec (.drw x y n) s = drwByBytes x y n s

/-- R176: drawing twice with the same I, V[x], V[y] and n, no sprite byte being one the draws write, restores memory; the
second draw collides exactly when some set sprite bit lands on a pixel that was unlit before the first. That is what R173
gives; R176's own clause "exactly when the sprite has at least one bit set" holds only where such a pixel exists (log 12). -/
def Obligations.DrwTwiceRestoresTheScreen : Prop :=
  ∀ (x y : Reg) (n : Fin 16) s t, x ≠ 15 → y ≠ 15 → Memory.wf s.mem = true →
    (∀ q r px py, q < n.val → r < n.val →
      Covers (Memory.read s.mem (s.i.toNat + r)) (s.reg x).toNat ((s.reg y).toNat + r) px py →
      pixelAddr px py ≠ s.i.toNat + q) →
    exec (.drw x y n) s = .next t →
    ∃ u, exec (.drw x y n) t = .next u ∧ u.mem = s.mem ∧
      ((u.reg 15 = 1 ∧ ∃ r px py, r < n.val ∧ px < 64 ∧ py < 32 ∧ lit s.mem px py = false ∧
          Covers (Memory.read s.mem (s.i.toNat + r)) (s.reg x).toNat ((s.reg y).toNat + r) px py) ∨
        (u.reg 15 = 0 ∧ ¬∃ r px py, r < n.val ∧ px < 64 ∧ py < 32 ∧ lit s.mem px py = false ∧
          Covers (Memory.read s.mem (s.i.toNat + r)) (s.reg x).toNat ((s.reg y).toNat + r) px py))

/-! ## Keys -/

/-- R190, R191, R195: a key index at most 15 skips by the state of that key; a higher one stops with its fault (decision
D12). -/
def Obligations.KeySkipsFollowTheKey : Prop :=
  ∀ (x : Reg) s,
    (∀ k : Key, (s.reg x).toNat = k.val →
      OnlyMovesPc (exec (.skp x) s) s (s.pc + if s.key k = true then 4 else 2) ∧
      OnlyMovesPc (exec (.sknp x) s) s (s.pc + if s.key k = true then 2 else 4)) ∧
    (15 < (s.reg x).toNat → exec (.skp x) s = .fault (.keyIndexOutOfRange (s.reg x)) ∧
      exec (.sknp x) s = .fault (.keyIndexOutOfRange (s.reg x)))

/-- R193: from Idle, LD Vx, K takes the snapshot, starts to wait, does not advance and reports no key. -/
def Obligations.KeyWaitBeginsWithASnapshot : Prop :=
  ∀ (x : Reg) s, s.waiting = false → ∃ t, exec (.ldK x) s = .next t ∧ t.pc = s.pc ∧
    (∀ k : Key, t.keysPrev[k] = s.key k) ∧ t.waiting = true ∧ t.keys = s.keys ∧
    KeepsMemory s t ∧ KeepsRegs s t ∧ KeepsPointers s t ∧ KeepsTimers s t ∧ KeepsModelFields s t

/-- R194 and R196: while waiting, the lowest key whose state differs from the snapshot, pressed or released, ends the wait;
"first" as the lowest index is decision D13. -/
def Obligations.KeyWaitReportsTheLowestChangedKey : Prop :=
  ∀ (x : Reg) s (k : Key), s.waiting = true → s.key k ≠ s.keysPrev[k] →
    (∀ j : Key, j < k → s.key j = s.keysPrev[j]) →
    ∃ t, exec (.ldK x) s = .next t ∧ t.pc = s.pc + 2 ∧ t.waiting = false ∧
      (∀ r, t.reg r = if r = x then BitVec.ofNat 8 k.val else s.reg r) ∧
      t.keys = s.keys ∧ t.keysPrev = s.keysPrev ∧ KeepsMemory s t ∧ KeepsPointers s t ∧ KeepsTimers s t ∧
      KeepsModelFields s t

/-- R194, R197, spec/95_test_vectors.md L1-6: without a change in K the machine stays in the wait, for any number of steps, with
no change at all. -/
def Obligations.KeyWaitLastsWithoutAChange : Prop :=
  ∀ (x : Reg) s n, s.fault = none → s.waiting = true → fetch s = .ok (.ldK x) →
    (∀ k : Key, s.key k = s.keysPrev[k]) → Host.Core.run core n s = .next s

/-! ## Transfers -/

/-- R210, R211, R212: LD Vx, DT; LD DT, Vx; LD ST, Vx. -/
def Obligations.TimerTransfers : Prop :=
  ∀ (x : Reg) s, WritesReg (exec (.ldVxDt x) s) s x s.dt ∧
    (∃ t, exec (.ldDtVx x) s = .next t ∧ t.pc = s.pc + 2 ∧ t.dt = s.reg x ∧ t.st = s.st ∧
      KeepsMemory s t ∧ KeepsRegs s t ∧ KeepsPointers s t ∧ KeepsKeys s t ∧ KeepsModelFields s t) ∧
    (∃ t, exec (.ldStVx x) s = .next t ∧ t.pc = s.pc + 2 ∧ t.st = s.reg x ∧ t.dt = s.dt ∧
      KeepsMemory s t ∧ KeepsRegs s t ∧ KeepsPointers s t ∧ KeepsKeys s t ∧ KeepsModelFields s t) ∧
    decodeWord (formatXKk 0xF x 0x07) = .ldVxDt x ∧ decodeWord (formatXKk 0xF x 0x15) = .ldDtVx x ∧
    decodeWord (formatXKk 0xF x 0x18) = .ldStVx x

/-- R213: ADD I, Vx: the 12-bit overflow of the unbounded sum in V[15], the low 12 bits in I. -/
def Obligations.AddIWritesOverflowAndTwelveBits : Prop :=
  ∀ (x : Reg) s, ∃ t, exec (.addI x) s = .next t ∧ t.pc = s.pc + 2 ∧
    t.i.toNat = (s.i.toNat + (s.reg x).toNat) % 0x1000 ∧
    (∀ r, t.reg r = if r = 15 then (if 0xFFF < s.i.toNat + (s.reg x).toNat then 1 else 0) else s.reg r) ∧
    KeepsMemory s t ∧ t.sp = s.sp ∧ KeepsTimers s t ∧ KeepsKeys s t ∧ KeepsModelFields s t ∧
    decodeWord (formatXKk 0xF x 0x1E) = .addI x

/-- R215 under every admissible configuration, and under the machine's: `glyph` sets I to FONT_BASE + 5 times the low nibble,
`noop` changes the PC alone, and that is what an LD F runs as in a step under that configuration. The policy and its default are
decision D14 (log 4). -/
def Obligations.LdFFollowsTheConfiguration : Prop :=
  (∀ (c : Config) (x : Reg) s, c.wf = true → c.ldfPolicy = .glyph →
    ∃ t, ldFWith c x s = .next t ∧ t.pc = s.pc + 2 ∧ t.i.toNat = c.fontBase + 5 * ((s.reg x).toNat % 16) ∧
      KeepsMemory s t ∧ KeepsRegs s t ∧ t.sp = s.sp ∧ KeepsTimers s t ∧ KeepsKeys s t ∧ KeepsModelFields s t) ∧
  (∀ (c : Config) (x : Reg) s, c.ldfPolicy = .noop → OnlyMovesPc (ldFWith c x s) s (s.pc + 2)) ∧
  (∀ (c : Config) r (x : Reg) s, execWith c r (.ldF x) s = ldFWith c x s) ∧
  ∀ (x : Reg) s, ∃ t, exec (.ldF x) s = .next t ∧ exec (.ldF x) s = ldFWith config x s ∧
    t.i.toNat = 5 * ((s.reg x).toNat % 16)

/-- R216: LD B stores the three decimal digits at I, I + 1 and I + 2, or stops before any write when I + 2 is above 0xFFF
(the fault is decision D3; log 9). -/
def Obligations.LdBStoresDecimalDigits : Prop :=
  ∀ (x : Reg) s,
    (s.i.toNat + 2 ≤ 0xFFF → ∃ t, exec (.ldB x) s = .next t ∧ t.pc = s.pc + 2 ∧
      (Memory.read t.mem s.i.toNat).toNat = (s.reg x).toNat / 100 ∧
      (Memory.read t.mem (s.i.toNat + 1)).toNat = (s.reg x).toNat / 10 % 10 ∧
      (Memory.read t.mem (s.i.toNat + 2)).toNat = (s.reg x).toNat % 10 ∧
      KeepsMemoryOutside (fun a => s.i.toNat ≤ a ∧ a ≤ s.i.toNat + 2) s t ∧ KeepsRegs s t ∧ KeepsSpecials s t) ∧
    (0xFFF < s.i.toNat + 2 → exec (.ldB x) s = .fault (.dataOutOfRange 0x1000)) ∧
    decodeWord (formatXKk 0xF x 0x33) = .ldB x

/-- R217: LD [I], Vx stores V[0]..V[x] at I..I + x, or stops before any write; I is kept (decisions D3, D18). -/
def Obligations.LdMemVxStoresTheRegisters : Prop :=
  ∀ (x : Reg) s,
    (s.i.toNat + x.val ≤ 0xFFF → ∃ t, exec (.ldMemVx x) s = .next t ∧ t.pc = s.pc + 2 ∧
      (∀ r : Reg, r ≤ x → Memory.read t.mem (s.i.toNat + r.val) = s.reg r) ∧
      KeepsMemoryOutside (fun a => s.i.toNat ≤ a ∧ a ≤ s.i.toNat + x.val) s t ∧ KeepsRegs s t ∧ KeepsSpecials s t) ∧
    (0xFFF < s.i.toNat + x.val → exec (.ldMemVx x) s = .fault (.dataOutOfRange 0x1000))

/-- R218: LD Vx, [I] loads V[0]..V[x] from I..I + x, or stops before any write; I is kept (decisions D3, D18). -/
def Obligations.LdVxMemLoadsTheRegisters : Prop :=
  ∀ (x : Reg) s,
    (s.i.toNat + x.val ≤ 0xFFF → ∃ t, exec (.ldVxMem x) s = .next t ∧ t.pc = s.pc + 2 ∧
      (∀ r : Reg, t.reg r = if r ≤ x then Memory.read s.mem (s.i.toNat + r.val) else s.reg r) ∧
      KeepsMemory s t ∧ KeepsSpecials s t) ∧
    (0xFFF < s.i.toNat + x.val → exec (.ldVxMem x) s = .fault (.dataOutOfRange 0x1000))

/-! ## Rules over all instructions -/

/-- R22: the flag writers leave 0 or 1 in V[15] when it is not also their destination, and no other instruction changes V[15]
but as its destination. R21: no instruction changes any other register but as its destination. -/
def Obligations.RegistersChangeOnlyAsDestinationOrFlag : Prop :=
  ∀ i s t, exec i s = .next t →
    (writesFlag i = true → isDestination 15 i = false → t.reg 15 = 0 ∨ t.reg 15 = 1) ∧
    ∀ r, isDestination r i = false → (r = 15 → writesFlag i = false) → t.reg r = s.reg r

/-- R23, R26, R28 to R32, R36: which instruction may change which other element; K is never changed by an instruction. -/
def Obligations.EachElementHasItsWritersOnly : Prop :=
  ∀ i s t, exec i s = .next t →
    (writesI i = false → t.i = s.i) ∧ (writesSp i = false → t.sp = s.sp) ∧
    ((∀ x, i ≠ .ldDtVx x) → t.dt = s.dt) ∧ ((∀ x, i ≠ .ldStVx x) → t.st = s.st) ∧ t.keys = s.keys ∧
    ((∀ x, i ≠ .ldK x) → t.keysPrev = s.keysPrev ∧ t.waiting = s.waiting) ∧
    (writesMemory i = false → t.mem = s.mem) ∧ ((∀ x kk, i ≠ .rnd x kk) → t.draws = s.draws) ∧ t.fault = s.fault

/-- R25, R103, R104: every instruction but a jump, a skip and the key wait moves the PC on by 2; only a skip moves it by 4; only
the key wait leaves it. -/
def Obligations.PcMovesByTwoUnlessTheRuleSaysOtherwise : Prop :=
  ∀ i s t, exec i s = .next t → isJump i = false →
    (isSkip i = true → t.pc = s.pc + 2 ∨ t.pc = s.pc + 4) ∧
    (isSkip i = false → t.pc = s.pc + 2 ∨ (t.pc = s.pc ∧ t.waiting = true ∧ ∃ x, i = .ldK x))

/-! ## Memory and the host -/

/-- R53, R54, R62: MemRead and MemWrite fault above 0xFFF and otherwise act on the one byte; a write keeps the canonical form,
and canonical memories that read alike are equal (decision D3; the list form is the model's own, log 8). -/
def Obligations.MemoryPrimitivesActOnOneByte : Prop :=
  (∀ m a b, 0xFFF < a → memRead m a = .error (.dataOutOfRange a) ∧ memWrite m a b = .error (.dataOutOfRange a)) ∧
  (∀ m a, a ≤ 0xFFF → memRead m a = .ok (Memory.read m a)) ∧
  (∀ m a b, a ≤ 0xFFF → ∃ m', memWrite m a b = .ok m' ∧ Memory.read m' a = b ∧
    (∀ c, c ≠ a → Memory.read m' c = Memory.read m c) ∧ (Memory.wf m = true → Memory.wf m' = true)) ∧
  ∀ m m', Memory.wf m = true → Memory.wf m' = true → (∀ a, Memory.read m a = Memory.read m' a) → m = m'

/-- R282: the loader places the image at 0x200, byte for byte, and touches nothing else; a longer image is rejected. The bound 0xCA0
and the rejection beyond it are C3 and decision D22 (log 9). -/
def Obligations.LoadPlacesTheImage : Prop :=
  ∀ (image : List Byte) s,
    (image.length ≤ 0xCA0 → ∃ t, loadImage image s = .next t ∧
      (∀ k, (h : k < image.length) → Memory.read t.mem (0x200 + k) = image[k]) ∧
      KeepsMemoryOutside (fun a => 0x200 ≤ a ∧ a < 0x200 + image.length) s t ∧ t.pc = s.pc ∧ KeepsRegs s t ∧
      KeepsSpecials s t) ∧
    (0xCA0 < image.length → loadImage image s = .refused (.imageTooLong image.length))

/-- R283: under every configuration the preload places the 80 font bytes at FONT_BASE and touches nothing else; one of another
length, or that would not end below 0x200 (R261), is refused (decision D14; log 11). -/
def Obligations.FontPreloadPlacesTheGlyphs : Prop :=
  ∀ (c : Config) (glyphs : List Byte) s,
    (glyphs.length = 80 → c.fontBase + 80 ≤ 0x200 → ∃ t, loadFont c glyphs s = .next t ∧
      (∀ k, (h : k < glyphs.length) → Memory.read t.mem (c.fontBase + k) = glyphs[k]) ∧
      KeepsMemoryOutside (fun a => c.fontBase ≤ a ∧ a < c.fontBase + 80) s t ∧ t.pc = s.pc ∧ KeepsRegs s t ∧
      KeepsSpecials s t) ∧
    (glyphs.length ≠ 80 ∨ 0x200 < c.fontBase + 80 → loadFont c glyphs s = .refused (.fontMisplaced glyphs.length))

/-- R250 and R261: a tick takes 1 from each timer that is above 0; set_keys, write_timers and read_state change what they name;
none of them changes anything else (decision D20 for the tick, D21 and log 13 for what the host may do). -/
def Obligations.HostTransactionsTouchOnlyKeysAndTimers : Prop :=
  ∀ (c : Config) s, (HostEvent.tick.apply c s).dt.toNat = s.dt.toNat - 1 ∧ (HostEvent.tick.apply c s).st.toNat = s.st.toNat - 1 ∧
    (HostEvent.tick.apply c s).keys = s.keys ∧
    (∀ k, ((HostEvent.setKeys k).apply c s).keys = k ∧ KeepsTimers s ((HostEvent.setKeys k).apply c s)) ∧
    (∀ dt st, ((HostEvent.writeTimers dt st).apply c s).dt = dt ∧ ((HostEvent.writeTimers dt st).apply c s).st = st ∧
      ((HostEvent.writeTimers dt st).apply c s).keys = s.keys) ∧
    HostEvent.readState.apply c s = s ∧
    ∀ e : HostEvent, (∀ r, e ≠ .step r) → (e.apply c s).mem = s.mem ∧ (e.apply c s).v = s.v ∧ (e.apply c s).pc = s.pc ∧
      KeepsPointers s (e.apply c s) ∧ (e.apply c s).keysPrev = s.keysPrev ∧ (e.apply c s).waiting = s.waiting ∧
      KeepsModelFields s (e.apply c s)
end

