-- ==== Sys2Proof/Laws/Decode.lean ====
section
/-! SUPPORT. What each field of each instruction format reads back (spec/30_encoding.md R72, R74). -/

namespace Sys2Proof

/-- A field is the quotient and remainder its bit positions say. -/
theorem fieldClass_val (w : Word) : (fieldClass w).val = w.toNat / 4096 := by
  have := w.isLt
  simp [fieldClass, nibble, BitVec.extractLsb, Nat.shiftRight_eq_div_pow]
  omega

theorem fieldX_val (w : Word) : (fieldX w).val = w.toNat / 256 % 16 := by
  simp [fieldX, nibble, BitVec.extractLsb, Nat.shiftRight_eq_div_pow]

theorem fieldY_val (w : Word) : (fieldY w).val = w.toNat / 16 % 16 := by
  simp [fieldY, nibble, BitVec.extractLsb, Nat.shiftRight_eq_div_pow]

theorem fieldN_val (w : Word) : (fieldN w).val = w.toNat % 16 := by
  simp [fieldN, nibble, BitVec.extractLsb]

theorem fieldKk_toNat (w : Word) : (fieldKk w).toNat = w.toNat % 256 := by
  simp [fieldKk, loByte, BitVec.extractLsb]

theorem fieldNnn_toNat (w : Word) : (fieldNnn w).toNat = w.toNat % 4096 := by
  simp [fieldNnn, BitVec.extractLsb]

/-! ### The formats as numbers -/

theorem formatAddr_toNat {c : Nat} (hc : c < 16) (nnn : Addr) :
    (formatAddr c nnn).toNat = c * 4096 + nnn.toNat := by
  have := nnn.isLt
  simp only [formatAddr, BitVec.toNat_ofNat]
  omega

theorem formatXKk_toNat {c : Nat} (hc : c < 16) (x : Reg) (kk : Byte) :
    (formatXKk c x kk).toNat = c * 4096 + x.val * 256 + kk.toNat := by
  have := kk.isLt
  simp only [formatXKk, BitVec.toNat_ofNat]
  omega

theorem formatXYN_toNat {c : Nat} (hc : c < 16) (x y n : Fin 16) :
    (formatXYN c x y n).toNat = c * 4096 + x.val * 256 + y.val * 16 + n.val := by
  simp only [formatXYN, BitVec.toNat_ofNat]
  omega

/-! ### Format addr -/

theorem formatAddr_class {c : Nat} (hc : c < 16) (nnn : Addr) : fieldClass (formatAddr c nnn) = ⟨c, hc⟩ := by
  have := nnn.isLt
  apply Fin.ext
  rw [fieldClass_val, formatAddr_toNat hc]
  show _ = c
  omega

theorem formatAddr_nnn {c : Nat} (hc : c < 16) (nnn : Addr) : fieldNnn (formatAddr c nnn) = nnn := by
  have := nnn.isLt
  apply BitVec.eq_of_toNat_eq
  rw [fieldNnn_toNat, formatAddr_toNat hc]
  omega

theorem formatAddr_kk {c : Nat} (hc : c < 16) (nnn : Addr) :
    (fieldKk (formatAddr c nnn)).toNat = nnn.toNat % 256 := by
  rw [fieldKk_toNat, formatAddr_toNat hc]
  omega

theorem formatAddr_n {c : Nat} (hc : c < 16) (nnn : Addr) : (fieldN (formatAddr c nnn)).val = nnn.toNat % 16 := by
  rw [fieldN_val, formatAddr_toNat hc]
  omega

/-! ### Format x_kk -/

theorem formatXKk_class {c : Nat} (hc : c < 16) (x : Reg) (kk : Byte) :
    fieldClass (formatXKk c x kk) = ⟨c, hc⟩ := by
  have := kk.isLt
  apply Fin.ext
  rw [fieldClass_val, formatXKk_toNat hc]
  show _ = c
  omega

theorem formatXKk_x {c : Nat} (hc : c < 16) (x : Reg) (kk : Byte) : fieldX (formatXKk c x kk) = x := by
  have := kk.isLt
  apply Fin.ext
  rw [fieldX_val, formatXKk_toNat hc]
  omega

theorem formatXKk_kk {c : Nat} (hc : c < 16) (x : Reg) (kk : Byte) : fieldKk (formatXKk c x kk) = kk := by
  have := kk.isLt
  apply BitVec.eq_of_toNat_eq
  rw [fieldKk_toNat, formatXKk_toNat hc]
  omega

/-! ### Formats x_y, x_y_n and alu -/

theorem formatXYN_class {c : Nat} (hc : c < 16) (x y n : Fin 16) : fieldClass (formatXYN c x y n) = ⟨c, hc⟩ := by
  apply Fin.ext
  rw [fieldClass_val, formatXYN_toNat hc]
  show _ = c
  omega

theorem formatXYN_x {c : Nat} (hc : c < 16) (x y n : Fin 16) : fieldX (formatXYN c x y n) = x := by
  apply Fin.ext
  rw [fieldX_val, formatXYN_toNat hc]
  omega

theorem formatXYN_y {c : Nat} (hc : c < 16) (x y n : Fin 16) : fieldY (formatXYN c x y n) = y := by
  apply Fin.ext
  rw [fieldY_val, formatXYN_toNat hc]
  omega

theorem formatXYN_n {c : Nat} (hc : c < 16) (x y n : Fin 16) : fieldN (formatXYN c x y n) = n := by
  apply Fin.ext
  rw [fieldN_val, formatXYN_toNat hc]
  omega

end Sys2Proof
end

