-- ==== Sys2Proof/Laws/Memory.lean ====
section
/-! SUPPORT. The laws of memory: read after write, the canonical form and that every write keeps it, equal reads give equal
memories, and what MemRead, MemWrite and loops of them answer. -/

namespace Sys2Proof.Machine

/-! ### Read after write -/

@[simp] theorem Memory.read_nil (a : Nat) : Memory.read [] a = Memory.blank := rfl

theorem Memory.read_cons (c : Host.Cell) (m : Memory) (a : Nat) :
    Memory.read (c :: m) a = if a = c.1 then c.2 else Memory.read m a := rfl

theorem Memory.read_erase (m : Memory) (a b : Nat) :
    Memory.read (Memory.erase m a) b = if b = a then Memory.blank else Memory.read m b := by
  induction m with
  | nil => simp [Memory.erase]
  | cons c m ih =>
    have he : Memory.erase (c :: m) a = if c.1 = a then Memory.erase m a else c :: Memory.erase m a := by
      by_cases h : c.1 = a <;> simp [Memory.erase, h]
    rw [he]
    by_cases h : c.1 = a
    · rw [if_pos h, ih]
      by_cases hb : b = a
      · simp [hb]
      · rw [if_neg hb, if_neg hb, Memory.read_cons, if_neg (by omega)]
    · rw [if_neg h, Memory.read_cons, ih, Memory.read_cons]
      by_cases hb : b = a
      · have hc : ¬b = c.1 := by omega
        rw [if_neg hc]
        simp only [if_pos hb]
      · simp only [if_neg hb]

theorem Memory.read_insert (m : Memory) (a : Nat) (u : Byte) (b : Nat) :
    Memory.read (Memory.insert m a u) b = if b = a then u else Memory.read m b := by
  induction m with
  | nil => simp [Memory.insert, Memory.read_cons]
  | cons c m ih =>
    obtain ⟨c, w⟩ := c
    simp only [Memory.insert]
    split
    · simp [Memory.read_cons]
    · split
      · subst a
        by_cases hb : b = c <;> simp [Memory.read_cons, hb]
      · by_cases hb : b = c
        · subst b; simp [Memory.read_cons]; omega
        · simp [Memory.read_cons, hb, ih]

/-- Read after write, at the same address and at every other. -/
@[simp] theorem Memory.read_write (m : Memory) (a : Nat) (u : Byte) (b : Nat) :
    Memory.read (Memory.write m a u) b = if b = a then u else Memory.read m b := by
  unfold Memory.write
  split
  · rw [Memory.read_erase]; simp_all
  · exact Memory.read_insert m a u b

/-- The bytes of a list land one after another; every other byte is kept. -/
theorem Memory.read_writeBytes (bs : List Byte) (m : Memory) (a b : Nat) :
    Memory.read (Memory.writeBytes m a bs) b =
      if h : a ≤ b ∧ b - a < bs.length then bs[b - a]'h.2 else Memory.read m b := by
  induction bs generalizing m a with
  | nil => simp [Memory.writeBytes]
  | cons u bs ih =>
    rw [Memory.writeBytes, ih]
    by_cases h1 : a + 1 ≤ b ∧ b - (a + 1) < bs.length
    · have h2 : a ≤ b ∧ b - a < (u :: bs).length := by simp; omega
      have h3 : b - a = (b - (a + 1)) + 1 := by omega
      rw [dif_pos h1, dif_pos h2]
      simp only [h3, List.getElem_cons_succ]
    · rw [dif_neg h1, Memory.read_write]
      by_cases hb : b = a
      · subst b; simp
      · rw [if_neg hb, dif_neg]
        simp only [List.length_cons]
        omega

/-! ### The canonical form -/

/-- The canonical form says that addresses rise strictly and that each entry is in range and not blank. -/
theorem Memory.wf_iff (m : Memory) :
    Memory.wf m = true ↔ m.Pairwise (fun c d => c.1 < d.1) ∧ ∀ c ∈ m, c.1 ≤ 0xFFF ∧ c.2 ≠ Memory.blank := by
  have rising_iff : ∀ m : Memory, Memory.rising m = true ↔ m.Pairwise (fun c d => c.1 < d.1) := by
    intro m
    induction m with
    | nil => simp [Memory.rising]
    | cons c m ih =>
      cases m with
      | nil => simp [Memory.rising]
      | cons d m =>
        simp only [Memory.rising, Bool.and_eq_true, decide_eq_true_eq, ih, List.pairwise_cons (a := c)]
        constructor
        · rintro ⟨h, hp⟩
          refine ⟨fun e he => ?_, hp⟩
          rcases List.mem_cons.1 he with rfl | he
          · exact h
          · exact Nat.lt_trans h ((List.pairwise_cons.1 hp).1 e he)
        · exact fun ⟨h, hp⟩ => ⟨h d (by simp), hp⟩
  simp [Memory.wf, rising_iff]

theorem Memory.wf_erase {m : Memory} (h : Memory.wf m = true) (a : Nat) : Memory.wf (Memory.erase m a) = true := by
  rw [Memory.wf_iff] at *
  exact ⟨h.1.filter _, fun c hc => h.2 c (List.mem_filter.1 hc).1⟩

theorem Memory.mem_insert {m : Memory} {a : Nat} {u : Byte} {c : Host.Cell} (h : c ∈ Memory.insert m a u) :
    c = (a, u) ∨ c ∈ m := by
  induction m with
  | nil => simpa [Memory.insert] using h
  | cons d m ih =>
    obtain ⟨d, w⟩ := d
    simp only [Memory.insert] at h
    split at h
    · simpa using h
    · split at h
      · rcases List.mem_cons.1 h with h | h
        · exact .inl h
        · exact .inr (by simp [h])
      · rcases List.mem_cons.1 h with h | h
        · exact .inr (by simp [h])
        · exact (ih h).imp_right (by simp +contextual)

theorem Memory.wf_insert {m : Memory} (h : Memory.wf m = true) {a : Nat} (ha : a ≤ 0xFFF) {u : Byte}
    (hu : u ≠ Memory.blank) : Memory.wf (Memory.insert m a u) = true := by
  rw [Memory.wf_iff] at *
  refine ⟨?_, fun c hc => ?_⟩
  · have hp := h.1
    clear h
    induction m with
    | nil => simp [Memory.insert]
    | cons d m ih =>
      obtain ⟨d, w⟩ := d
      rw [List.pairwise_cons] at hp
      simp only [Memory.insert]
      split
      · rename_i had
        refine List.pairwise_cons.2 ⟨fun e he => ?_, List.pairwise_cons.2 hp⟩
        rcases List.mem_cons.1 he with rfl | he
        · exact had
        · exact Nat.lt_trans had (hp.1 e he)
      · split
        · rename_i had
          subst had
          exact List.pairwise_cons.2 hp
        · refine List.pairwise_cons.2 ⟨fun e he => ?_, ih hp.2⟩
          rcases Memory.mem_insert he with rfl | he
          · show d < a; omega
          · exact hp.1 e he
  · rcases Memory.mem_insert hc with rfl | hc
    · exact ⟨ha, hu⟩
    · exact h.2 c hc

/-- Every write inside memory keeps the canonical form. -/
theorem Memory.wf_write {m : Memory} (h : Memory.wf m = true) {a : Nat} (ha : a ≤ 0xFFF) (u : Byte) :
    Memory.wf (Memory.write m a u) = true := by
  unfold Memory.write
  split
  · exact Memory.wf_erase h a
  · exact Memory.wf_insert h ha ‹_›

theorem Memory.wf_writeBytes (bs : List Byte) {m : Memory} (h : Memory.wf m = true) {a : Nat}
    (ha : a + bs.length ≤ 0x1000) : Memory.wf (Memory.writeBytes m a bs) = true := by
  induction bs generalizing m a with
  | nil => simpa [Memory.writeBytes] using h
  | cons u bs ih =>
    simp only [List.length_cons] at ha
    exact ih (Memory.wf_write h (by omega) u) (by omega)

theorem Memory.wf_nil : Memory.wf [] = true := rfl

/-- In canonical form an address below every entry reads blank. -/
theorem Memory.read_of_lt {m : Memory} {a : Nat} (h : ∀ c ∈ m, a < c.1) : Memory.read m a = Memory.blank := by
  induction m with
  | nil => rfl
  | cons c m ih =>
    have := h c (by simp)
    rw [Memory.read_cons, if_neg (by omega)]
    exact ih fun d hd => h d (by simp [hd])

/-- Canonical memories that read alike are the same list. -/
theorem Memory.eq_of_read {m m' : Memory} (h : Memory.wf m = true) (h' : Memory.wf m' = true)
    (hr : ∀ a, Memory.read m a = Memory.read m' a) : m = m' := by
  rw [Memory.wf_iff] at h h'
  induction m generalizing m' with
  | nil =>
    cases m' with
    | nil => rfl
    | cons d m' =>
      have := hr d.1
      simp only [Memory.read_nil, Memory.read_cons, if_true] at this
      exact absurd this.symm (h'.2 d (by simp)).2
  | cons c m ih =>
    cases m' with
    | nil =>
      have := hr c.1
      simp only [Memory.read_nil, Memory.read_cons, if_true] at this
      exact absurd this (h.2 c (by simp)).2
    | cons d m' =>
      have hp := List.pairwise_cons.1 h.1
      have hp' := List.pairwise_cons.1 h'.1
      have hcd : c.1 = d.1 := by
        rcases Nat.lt_trichotomy c.1 d.1 with hlt | he | hlt
        · have h1 := hr c.1
          rw [Memory.read_cons, if_pos rfl, Memory.read_of_lt (m := d :: m')] at h1
          · exact absurd h1 (h.2 c (by simp)).2
          · intro e he
            rcases List.mem_cons.1 he with rfl | he
            · exact hlt
            · exact Nat.lt_trans hlt (hp'.1 e he)
        · exact he
        · have h1 := hr d.1
          rw [Memory.read_cons d, if_pos rfl, Memory.read_of_lt (m := c :: m)] at h1
          · exact absurd h1.symm (h'.2 d (by simp)).2
          · intro e he
            rcases List.mem_cons.1 he with rfl | he
            · exact hlt
            · exact Nat.lt_trans hlt (hp.1 e he)
      have hu : c.2 = d.2 := by
        have h1 := hr c.1
        rwa [Memory.read_cons, if_pos rfl, Memory.read_cons, if_pos hcd] at h1
      have htail : m = m' := by
        refine ih (m' := m') ⟨hp.2, fun e he => h.2 e (by simp [he])⟩ ⟨hp'.2, fun e he => h'.2 e (by simp [he])⟩
          fun a => ?_
        have h1 := hr a
        rw [Memory.read_cons, Memory.read_cons, ← hcd] at h1
        by_cases ha : a = c.1
        · rw [Memory.read_of_lt (fun e he => ha ▸ hp.1 e he),
            Memory.read_of_lt (fun e he => by rw [ha, hcd]; exact hp'.1 e he)]
        · rwa [if_neg ha, if_neg ha] at h1
      rw [htail, Prod.ext hcd hu]

/-! ### MemRead and MemWrite -/

/-- The step of a computation that may fault, after one that did not. -/
theorem bind_ok {α β : Type} (a : α) (f : α → Except Fault β) : (Except.ok a >>= f) = f a := rfl

theorem pure_eq_ok {α : Type} (a : α) : (pure a : Except Fault α) = .ok a := rfl

theorem bind_error {α β : Type} (e : Fault) (f : α → Except Fault β) : (Except.error e >>= f) = .error e := rfl

theorem memRead_ok (m : Memory) {a : Nat} (h : a ≤ 0xFFF) : memRead m a = .ok (Memory.read m a) := by
  simp [memRead]; omega

theorem memWrite_ok (m : Memory) {a : Nat} (h : a ≤ 0xFFF) (u : Byte) : memWrite m a u = .ok (Memory.write m a u) := by
  simp [memWrite]; omega

theorem memRead_error (m : Memory) {a : Nat} (h : 0xFFF < a) : memRead m a = .error (.dataOutOfRange a) := by
  simp [memRead, h]

theorem memWrite_error (m : Memory) {a : Nat} (h : 0xFFF < a) (u : Byte) :
    memWrite m a u = .error (.dataOutOfRange a) := by
  simp [memWrite, h]

/-- A loop none of whose rounds faults is the plain fold. -/
theorem foldlM_ok {α β : Type} {f : β → α → Except Fault β} {g : β → α → β} (l : List α) (b : β)
    (h : ∀ a ∈ l, ∀ b, f b a = .ok (g b a)) : l.foldlM f b = .ok (l.foldl g b) := by
  induction l generalizing b with
  | nil => rfl
  | cons a l ih =>
    rw [List.foldlM_cons, h a (by simp), bind_ok, List.foldl_cons]
    exact ih _ fun c hc => h c (by simp [hc])

/-- A property that every round of a plain fold keeps holds at its end. -/
theorem foldl_keeps {α β : Type} {g : β → α → β} {P : β → Prop} (l : List α) (b : β) (hb : P b)
    (h : ∀ a ∈ l, ∀ b, P b → P (g b a)) : P (l.foldl g b) := by
  induction l generalizing b with
  | nil => exact hb
  | cons a l ih => exact ih _ (h a (by simp) b hb) fun c hc => h c (by simp [hc])

/-- The plain fold of writes: an address the list does not name is kept, one it names holds the value last written
there. -/
theorem Memory.read_foldl_write {α : Type} (f : α → Nat) (g : α → Byte) (l : List α) (m : Memory) (b : Nat) :
    Memory.read (l.foldl (fun m a => Memory.write m (f a) (g a)) m) b =
      match l.reverse.find? (fun a => f a = b) with
      | some a => g a
      | none => Memory.read m b := by
  induction l generalizing m with
  | nil => simp
  | cons a l ih =>
    rw [List.foldl_cons, ih, List.reverse_cons, List.find?_append]
    cases h : l.reverse.find? (fun a => f a = b) with
    | some c => simp
    | none =>
      by_cases hb : f a = b <;> simp [hb, Memory.read_write]
      omega

end Sys2Proof.Machine
end

