-- ==== Sys2Proof/Laws/State.lean ====
section
/-! SUPPORT. What each update of the state leaves in each field, and the register file's read-after-write laws. -/

namespace Sys2Proof.Machine

/-! ### setReg -/

@[simp] theorem State.setReg_mem (s : State) (r : Reg) (b : Byte) : (s.setReg r b).mem = s.mem := rfl
@[simp] theorem State.setReg_v (s : State) (r : Reg) (b : Byte) : (s.setReg r b).v = s.v.set r b := rfl
@[simp] theorem State.setReg_i (s : State) (r : Reg) (b : Byte) : (s.setReg r b).i = s.i := rfl
@[simp] theorem State.setReg_pc (s : State) (r : Reg) (b : Byte) : (s.setReg r b).pc = s.pc := rfl
@[simp] theorem State.setReg_sp (s : State) (r : Reg) (b : Byte) : (s.setReg r b).sp = s.sp := rfl
@[simp] theorem State.setReg_dt (s : State) (r : Reg) (b : Byte) : (s.setReg r b).dt = s.dt := rfl
@[simp] theorem State.setReg_st (s : State) (r : Reg) (b : Byte) : (s.setReg r b).st = s.st := rfl
@[simp] theorem State.setReg_keys (s : State) (r : Reg) (b : Byte) : (s.setReg r b).keys = s.keys := rfl
@[simp] theorem State.setReg_keysPrev (s : State) (r : Reg) (b : Byte) : (s.setReg r b).keysPrev = s.keysPrev := rfl
@[simp] theorem State.setReg_waiting (s : State) (r : Reg) (b : Byte) : (s.setReg r b).waiting = s.waiting := rfl
@[simp] theorem State.setReg_fault (s : State) (r : Reg) (b : Byte) : (s.setReg r b).fault = s.fault := rfl
@[simp] theorem State.setReg_draws (s : State) (r : Reg) (b : Byte) : (s.setReg r b).draws = s.draws := rfl

/-! ### setFlag -/

@[simp] theorem State.setFlag_mem (s : State) (f : Bool) : (s.setFlag f).mem = s.mem := rfl
@[simp] theorem State.setFlag_v (s : State) (f : Bool) : (s.setFlag f).v = s.v.set flagReg (if f then 1 else 0) := rfl
@[simp] theorem State.setFlag_i (s : State) (f : Bool) : (s.setFlag f).i = s.i := rfl
@[simp] theorem State.setFlag_pc (s : State) (f : Bool) : (s.setFlag f).pc = s.pc := rfl
@[simp] theorem State.setFlag_sp (s : State) (f : Bool) : (s.setFlag f).sp = s.sp := rfl
@[simp] theorem State.setFlag_dt (s : State) (f : Bool) : (s.setFlag f).dt = s.dt := rfl
@[simp] theorem State.setFlag_st (s : State) (f : Bool) : (s.setFlag f).st = s.st := rfl
@[simp] theorem State.setFlag_keys (s : State) (f : Bool) : (s.setFlag f).keys = s.keys := rfl
@[simp] theorem State.setFlag_keysPrev (s : State) (f : Bool) : (s.setFlag f).keysPrev = s.keysPrev := rfl
@[simp] theorem State.setFlag_waiting (s : State) (f : Bool) : (s.setFlag f).waiting = s.waiting := rfl
@[simp] theorem State.setFlag_fault (s : State) (f : Bool) : (s.setFlag f).fault = s.fault := rfl
@[simp] theorem State.setFlag_draws (s : State) (f : Bool) : (s.setFlag f).draws = s.draws := rfl

/-! ### setRegs -/

@[simp] theorem State.setRegs_mem (s : State) (w : Vector Byte 16) : (s.setRegs w).mem = s.mem := rfl
@[simp] theorem State.setRegs_v (s : State) (w : Vector Byte 16) : (s.setRegs w).v = w := rfl
@[simp] theorem State.setRegs_i (s : State) (w : Vector Byte 16) : (s.setRegs w).i = s.i := rfl
@[simp] theorem State.setRegs_pc (s : State) (w : Vector Byte 16) : (s.setRegs w).pc = s.pc := rfl
@[simp] theorem State.setRegs_sp (s : State) (w : Vector Byte 16) : (s.setRegs w).sp = s.sp := rfl
@[simp] theorem State.setRegs_dt (s : State) (w : Vector Byte 16) : (s.setRegs w).dt = s.dt := rfl
@[simp] theorem State.setRegs_st (s : State) (w : Vector Byte 16) : (s.setRegs w).st = s.st := rfl
@[simp] theorem State.setRegs_keys (s : State) (w : Vector Byte 16) : (s.setRegs w).keys = s.keys := rfl
@[simp] theorem State.setRegs_keysPrev (s : State) (w : Vector Byte 16) : (s.setRegs w).keysPrev = s.keysPrev := rfl
@[simp] theorem State.setRegs_waiting (s : State) (w : Vector Byte 16) : (s.setRegs w).waiting = s.waiting := rfl
@[simp] theorem State.setRegs_fault (s : State) (w : Vector Byte 16) : (s.setRegs w).fault = s.fault := rfl
@[simp] theorem State.setRegs_draws (s : State) (w : Vector Byte 16) : (s.setRegs w).draws = s.draws := rfl

/-! ### setI -/

@[simp] theorem State.setI_mem (s : State) (w : Word) : (s.setI w).mem = s.mem := rfl
@[simp] theorem State.setI_v (s : State) (w : Word) : (s.setI w).v = s.v := rfl
@[simp] theorem State.setI_i (s : State) (w : Word) : (s.setI w).i = w := rfl
@[simp] theorem State.setI_pc (s : State) (w : Word) : (s.setI w).pc = s.pc := rfl
@[simp] theorem State.setI_sp (s : State) (w : Word) : (s.setI w).sp = s.sp := rfl
@[simp] theorem State.setI_dt (s : State) (w : Word) : (s.setI w).dt = s.dt := rfl
@[simp] theorem State.setI_st (s : State) (w : Word) : (s.setI w).st = s.st := rfl
@[simp] theorem State.setI_keys (s : State) (w : Word) : (s.setI w).keys = s.keys := rfl
@[simp] theorem State.setI_keysPrev (s : State) (w : Word) : (s.setI w).keysPrev = s.keysPrev := rfl
@[simp] theorem State.setI_waiting (s : State) (w : Word) : (s.setI w).waiting = s.waiting := rfl
@[simp] theorem State.setI_fault (s : State) (w : Word) : (s.setI w).fault = s.fault := rfl
@[simp] theorem State.setI_draws (s : State) (w : Word) : (s.setI w).draws = s.draws := rfl

/-! ### setPc -/

@[simp] theorem State.setPc_mem (s : State) (w : Word) : (s.setPc w).mem = s.mem := rfl
@[simp] theorem State.setPc_v (s : State) (w : Word) : (s.setPc w).v = s.v := rfl
@[simp] theorem State.setPc_i (s : State) (w : Word) : (s.setPc w).i = s.i := rfl
@[simp] theorem State.setPc_pc (s : State) (w : Word) : (s.setPc w).pc = w := rfl
@[simp] theorem State.setPc_sp (s : State) (w : Word) : (s.setPc w).sp = s.sp := rfl
@[simp] theorem State.setPc_dt (s : State) (w : Word) : (s.setPc w).dt = s.dt := rfl
@[simp] theorem State.setPc_st (s : State) (w : Word) : (s.setPc w).st = s.st := rfl
@[simp] theorem State.setPc_keys (s : State) (w : Word) : (s.setPc w).keys = s.keys := rfl
@[simp] theorem State.setPc_keysPrev (s : State) (w : Word) : (s.setPc w).keysPrev = s.keysPrev := rfl
@[simp] theorem State.setPc_waiting (s : State) (w : Word) : (s.setPc w).waiting = s.waiting := rfl
@[simp] theorem State.setPc_fault (s : State) (w : Word) : (s.setPc w).fault = s.fault := rfl
@[simp] theorem State.setPc_draws (s : State) (w : Word) : (s.setPc w).draws = s.draws := rfl

/-! ### setSp -/

@[simp] theorem State.setSp_mem (s : State) (b : Byte) : (s.setSp b).mem = s.mem := rfl
@[simp] theorem State.setSp_v (s : State) (b : Byte) : (s.setSp b).v = s.v := rfl
@[simp] theorem State.setSp_i (s : State) (b : Byte) : (s.setSp b).i = s.i := rfl
@[simp] theorem State.setSp_pc (s : State) (b : Byte) : (s.setSp b).pc = s.pc := rfl
@[simp] theorem State.setSp_sp (s : State) (b : Byte) : (s.setSp b).sp = b := rfl
@[simp] theorem State.setSp_dt (s : State) (b : Byte) : (s.setSp b).dt = s.dt := rfl
@[simp] theorem State.setSp_st (s : State) (b : Byte) : (s.setSp b).st = s.st := rfl
@[simp] theorem State.setSp_keys (s : State) (b : Byte) : (s.setSp b).keys = s.keys := rfl
@[simp] theorem State.setSp_keysPrev (s : State) (b : Byte) : (s.setSp b).keysPrev = s.keysPrev := rfl
@[simp] theorem State.setSp_waiting (s : State) (b : Byte) : (s.setSp b).waiting = s.waiting := rfl
@[simp] theorem State.setSp_fault (s : State) (b : Byte) : (s.setSp b).fault = s.fault := rfl
@[simp] theorem State.setSp_draws (s : State) (b : Byte) : (s.setSp b).draws = s.draws := rfl

/-! ### setDt -/

@[simp] theorem State.setDt_mem (s : State) (b : Byte) : (s.setDt b).mem = s.mem := rfl
@[simp] theorem State.setDt_v (s : State) (b : Byte) : (s.setDt b).v = s.v := rfl
@[simp] theorem State.setDt_i (s : State) (b : Byte) : (s.setDt b).i = s.i := rfl
@[simp] theorem State.setDt_pc (s : State) (b : Byte) : (s.setDt b).pc = s.pc := rfl
@[simp] theorem State.setDt_sp (s : State) (b : Byte) : (s.setDt b).sp = s.sp := rfl
@[simp] theorem State.setDt_dt (s : State) (b : Byte) : (s.setDt b).dt = b := rfl
@[simp] theorem State.setDt_st (s : State) (b : Byte) : (s.setDt b).st = s.st := rfl
@[simp] theorem State.setDt_keys (s : State) (b : Byte) : (s.setDt b).keys = s.keys := rfl
@[simp] theorem State.setDt_keysPrev (s : State) (b : Byte) : (s.setDt b).keysPrev = s.keysPrev := rfl
@[simp] theorem State.setDt_waiting (s : State) (b : Byte) : (s.setDt b).waiting = s.waiting := rfl
@[simp] theorem State.setDt_fault (s : State) (b : Byte) : (s.setDt b).fault = s.fault := rfl
@[simp] theorem State.setDt_draws (s : State) (b : Byte) : (s.setDt b).draws = s.draws := rfl

/-! ### setSt -/

@[simp] theorem State.setSt_mem (s : State) (b : Byte) : (s.setSt b).mem = s.mem := rfl
@[simp] theorem State.setSt_v (s : State) (b : Byte) : (s.setSt b).v = s.v := rfl
@[simp] theorem State.setSt_i (s : State) (b : Byte) : (s.setSt b).i = s.i := rfl
@[simp] theorem State.setSt_pc (s : State) (b : Byte) : (s.setSt b).pc = s.pc := rfl
@[simp] theorem State.setSt_sp (s : State) (b : Byte) : (s.setSt b).sp = s.sp := rfl
@[simp] theorem State.setSt_dt (s : State) (b : Byte) : (s.setSt b).dt = s.dt := rfl
@[simp] theorem State.setSt_st (s : State) (b : Byte) : (s.setSt b).st = b := rfl
@[simp] theorem State.setSt_keys (s : State) (b : Byte) : (s.setSt b).keys = s.keys := rfl
@[simp] theorem State.setSt_keysPrev (s : State) (b : Byte) : (s.setSt b).keysPrev = s.keysPrev := rfl
@[simp] theorem State.setSt_waiting (s : State) (b : Byte) : (s.setSt b).waiting = s.waiting := rfl
@[simp] theorem State.setSt_fault (s : State) (b : Byte) : (s.setSt b).fault = s.fault := rfl
@[simp] theorem State.setSt_draws (s : State) (b : Byte) : (s.setSt b).draws = s.draws := rfl

/-! ### setMem -/

@[simp] theorem State.setMem_mem (s : State) (m : Memory) : (s.setMem m).mem = m := rfl
@[simp] theorem State.setMem_v (s : State) (m : Memory) : (s.setMem m).v = s.v := rfl
@[simp] theorem State.setMem_i (s : State) (m : Memory) : (s.setMem m).i = s.i := rfl
@[simp] theorem State.setMem_pc (s : State) (m : Memory) : (s.setMem m).pc = s.pc := rfl
@[simp] theorem State.setMem_sp (s : State) (m : Memory) : (s.setMem m).sp = s.sp := rfl
@[simp] theorem State.setMem_dt (s : State) (m : Memory) : (s.setMem m).dt = s.dt := rfl
@[simp] theorem State.setMem_st (s : State) (m : Memory) : (s.setMem m).st = s.st := rfl
@[simp] theorem State.setMem_keys (s : State) (m : Memory) : (s.setMem m).keys = s.keys := rfl
@[simp] theorem State.setMem_keysPrev (s : State) (m : Memory) : (s.setMem m).keysPrev = s.keysPrev := rfl
@[simp] theorem State.setMem_waiting (s : State) (m : Memory) : (s.setMem m).waiting = s.waiting := rfl
@[simp] theorem State.setMem_fault (s : State) (m : Memory) : (s.setMem m).fault = s.fault := rfl
@[simp] theorem State.setMem_draws (s : State) (m : Memory) : (s.setMem m).draws = s.draws := rfl

/-! ### setKeys -/

@[simp] theorem State.setKeys_mem (s : State) (k : Vector Bool 16) : (s.setKeys k).mem = s.mem := rfl
@[simp] theorem State.setKeys_v (s : State) (k : Vector Bool 16) : (s.setKeys k).v = s.v := rfl
@[simp] theorem State.setKeys_i (s : State) (k : Vector Bool 16) : (s.setKeys k).i = s.i := rfl
@[simp] theorem State.setKeys_pc (s : State) (k : Vector Bool 16) : (s.setKeys k).pc = s.pc := rfl
@[simp] theorem State.setKeys_sp (s : State) (k : Vector Bool 16) : (s.setKeys k).sp = s.sp := rfl
@[simp] theorem State.setKeys_dt (s : State) (k : Vector Bool 16) : (s.setKeys k).dt = s.dt := rfl
@[simp] theorem State.setKeys_st (s : State) (k : Vector Bool 16) : (s.setKeys k).st = s.st := rfl
@[simp] theorem State.setKeys_keys (s : State) (k : Vector Bool 16) : (s.setKeys k).keys = k := rfl
@[simp] theorem State.setKeys_keysPrev (s : State) (k : Vector Bool 16) : (s.setKeys k).keysPrev = s.keysPrev := rfl
@[simp] theorem State.setKeys_waiting (s : State) (k : Vector Bool 16) : (s.setKeys k).waiting = s.waiting := rfl
@[simp] theorem State.setKeys_fault (s : State) (k : Vector Bool 16) : (s.setKeys k).fault = s.fault := rfl
@[simp] theorem State.setKeys_draws (s : State) (k : Vector Bool 16) : (s.setKeys k).draws = s.draws := rfl

/-! ### setKeysPrev -/

@[simp] theorem State.setKeysPrev_mem (s : State) (k : Vector Bool 16) : (s.setKeysPrev k).mem = s.mem := rfl
@[simp] theorem State.setKeysPrev_v (s : State) (k : Vector Bool 16) : (s.setKeysPrev k).v = s.v := rfl
@[simp] theorem State.setKeysPrev_i (s : State) (k : Vector Bool 16) : (s.setKeysPrev k).i = s.i := rfl
@[simp] theorem State.setKeysPrev_pc (s : State) (k : Vector Bool 16) : (s.setKeysPrev k).pc = s.pc := rfl
@[simp] theorem State.setKeysPrev_sp (s : State) (k : Vector Bool 16) : (s.setKeysPrev k).sp = s.sp := rfl
@[simp] theorem State.setKeysPrev_dt (s : State) (k : Vector Bool 16) : (s.setKeysPrev k).dt = s.dt := rfl
@[simp] theorem State.setKeysPrev_st (s : State) (k : Vector Bool 16) : (s.setKeysPrev k).st = s.st := rfl
@[simp] theorem State.setKeysPrev_keys (s : State) (k : Vector Bool 16) : (s.setKeysPrev k).keys = s.keys := rfl
@[simp] theorem State.setKeysPrev_keysPrev (s : State) (k : Vector Bool 16) : (s.setKeysPrev k).keysPrev = k := rfl
@[simp] theorem State.setKeysPrev_waiting (s : State) (k : Vector Bool 16) : (s.setKeysPrev k).waiting = s.waiting := rfl
@[simp] theorem State.setKeysPrev_fault (s : State) (k : Vector Bool 16) : (s.setKeysPrev k).fault = s.fault := rfl
@[simp] theorem State.setKeysPrev_draws (s : State) (k : Vector Bool 16) : (s.setKeysPrev k).draws = s.draws := rfl

/-! ### setWaiting -/

@[simp] theorem State.setWaiting_mem (s : State) (b : Bool) : (s.setWaiting b).mem = s.mem := rfl
@[simp] theorem State.setWaiting_v (s : State) (b : Bool) : (s.setWaiting b).v = s.v := rfl
@[simp] theorem State.setWaiting_i (s : State) (b : Bool) : (s.setWaiting b).i = s.i := rfl
@[simp] theorem State.setWaiting_pc (s : State) (b : Bool) : (s.setWaiting b).pc = s.pc := rfl
@[simp] theorem State.setWaiting_sp (s : State) (b : Bool) : (s.setWaiting b).sp = s.sp := rfl
@[simp] theorem State.setWaiting_dt (s : State) (b : Bool) : (s.setWaiting b).dt = s.dt := rfl
@[simp] theorem State.setWaiting_st (s : State) (b : Bool) : (s.setWaiting b).st = s.st := rfl
@[simp] theorem State.setWaiting_keys (s : State) (b : Bool) : (s.setWaiting b).keys = s.keys := rfl
@[simp] theorem State.setWaiting_keysPrev (s : State) (b : Bool) : (s.setWaiting b).keysPrev = s.keysPrev := rfl
@[simp] theorem State.setWaiting_waiting (s : State) (b : Bool) : (s.setWaiting b).waiting = b := rfl
@[simp] theorem State.setWaiting_fault (s : State) (b : Bool) : (s.setWaiting b).fault = s.fault := rfl
@[simp] theorem State.setWaiting_draws (s : State) (b : Bool) : (s.setWaiting b).draws = s.draws := rfl

/-! ### nextDraw -/

@[simp] theorem State.nextDraw_mem (s : State) : (s.nextDraw).mem = s.mem := rfl
@[simp] theorem State.nextDraw_v (s : State) : (s.nextDraw).v = s.v := rfl
@[simp] theorem State.nextDraw_i (s : State) : (s.nextDraw).i = s.i := rfl
@[simp] theorem State.nextDraw_pc (s : State) : (s.nextDraw).pc = s.pc := rfl
@[simp] theorem State.nextDraw_sp (s : State) : (s.nextDraw).sp = s.sp := rfl
@[simp] theorem State.nextDraw_dt (s : State) : (s.nextDraw).dt = s.dt := rfl
@[simp] theorem State.nextDraw_st (s : State) : (s.nextDraw).st = s.st := rfl
@[simp] theorem State.nextDraw_keys (s : State) : (s.nextDraw).keys = s.keys := rfl
@[simp] theorem State.nextDraw_keysPrev (s : State) : (s.nextDraw).keysPrev = s.keysPrev := rfl
@[simp] theorem State.nextDraw_waiting (s : State) : (s.nextDraw).waiting = s.waiting := rfl
@[simp] theorem State.nextDraw_fault (s : State) : (s.nextDraw).fault = s.fault := rfl
@[simp] theorem State.nextDraw_draws (s : State) : (s.nextDraw).draws = s.draws + 1 := rfl

/-! ### raise -/

@[simp] theorem State.raise_mem (s : State) (r : Fault) : (s.raise r).mem = s.mem := rfl
@[simp] theorem State.raise_v (s : State) (r : Fault) : (s.raise r).v = s.v := rfl
@[simp] theorem State.raise_i (s : State) (r : Fault) : (s.raise r).i = s.i := rfl
@[simp] theorem State.raise_pc (s : State) (r : Fault) : (s.raise r).pc = s.pc := rfl
@[simp] theorem State.raise_sp (s : State) (r : Fault) : (s.raise r).sp = s.sp := rfl
@[simp] theorem State.raise_dt (s : State) (r : Fault) : (s.raise r).dt = s.dt := rfl
@[simp] theorem State.raise_st (s : State) (r : Fault) : (s.raise r).st = s.st := rfl
@[simp] theorem State.raise_keys (s : State) (r : Fault) : (s.raise r).keys = s.keys := rfl
@[simp] theorem State.raise_keysPrev (s : State) (r : Fault) : (s.raise r).keysPrev = s.keysPrev := rfl
@[simp] theorem State.raise_waiting (s : State) (r : Fault) : (s.raise r).waiting = s.waiting := rfl
@[simp] theorem State.raise_fault (s : State) (r : Fault) : (s.raise r).fault = some r := rfl
@[simp] theorem State.raise_draws (s : State) (r : Fault) : (s.raise r).draws = s.draws := rfl

/-! ### advance -/

@[simp] theorem State.advance_mem (s : State) : (s.advance).mem = s.mem := rfl
@[simp] theorem State.advance_v (s : State) : (s.advance).v = s.v := rfl
@[simp] theorem State.advance_i (s : State) : (s.advance).i = s.i := rfl
@[simp] theorem State.advance_pc (s : State) : (s.advance).pc = s.pc + 2 := rfl
@[simp] theorem State.advance_sp (s : State) : (s.advance).sp = s.sp := rfl
@[simp] theorem State.advance_dt (s : State) : (s.advance).dt = s.dt := rfl
@[simp] theorem State.advance_st (s : State) : (s.advance).st = s.st := rfl
@[simp] theorem State.advance_keys (s : State) : (s.advance).keys = s.keys := rfl
@[simp] theorem State.advance_keysPrev (s : State) : (s.advance).keysPrev = s.keysPrev := rfl
@[simp] theorem State.advance_waiting (s : State) : (s.advance).waiting = s.waiting := rfl
@[simp] theorem State.advance_fault (s : State) : (s.advance).fault = s.fault := rfl
@[simp] theorem State.advance_draws (s : State) : (s.advance).draws = s.draws := rfl

/-! ### skipIf -/

@[simp] theorem State.skipIf_mem (s : State) (c : Bool) : (s.skipIf c).mem = s.mem := rfl
@[simp] theorem State.skipIf_v (s : State) (c : Bool) : (s.skipIf c).v = s.v := rfl
@[simp] theorem State.skipIf_i (s : State) (c : Bool) : (s.skipIf c).i = s.i := rfl
@[simp] theorem State.skipIf_pc (s : State) (c : Bool) : (s.skipIf c).pc = if c then s.pc + 4 else s.pc + 2 := rfl
@[simp] theorem State.skipIf_sp (s : State) (c : Bool) : (s.skipIf c).sp = s.sp := rfl
@[simp] theorem State.skipIf_dt (s : State) (c : Bool) : (s.skipIf c).dt = s.dt := rfl
@[simp] theorem State.skipIf_st (s : State) (c : Bool) : (s.skipIf c).st = s.st := rfl
@[simp] theorem State.skipIf_keys (s : State) (c : Bool) : (s.skipIf c).keys = s.keys := rfl
@[simp] theorem State.skipIf_keysPrev (s : State) (c : Bool) : (s.skipIf c).keysPrev = s.keysPrev := rfl
@[simp] theorem State.skipIf_waiting (s : State) (c : Bool) : (s.skipIf c).waiting = s.waiting := rfl
@[simp] theorem State.skipIf_fault (s : State) (c : Bool) : (s.skipIf c).fault = s.fault := rfl
@[simp] theorem State.skipIf_draws (s : State) (c : Bool) : (s.skipIf c).draws = s.draws := rfl

/-! ### Reads through the accessors -/

@[simp] theorem State.setReg_key (s : State) (r : Reg) (b : Byte) (j : Key) : (s.setReg r b).key j = s.key j := rfl
@[simp] theorem State.setFlag_key (s : State) (f : Bool) (j : Key) : (s.setFlag f).key j = s.key j := rfl
@[simp] theorem State.setRegs_key (s : State) (w : Vector Byte 16) (j : Key) : (s.setRegs w).key j = s.key j := rfl
@[simp] theorem State.setI_reg (s : State) (w : Word) (q : Reg) : (s.setI w).reg q = s.reg q := rfl
@[simp] theorem State.setI_key (s : State) (w : Word) (j : Key) : (s.setI w).key j = s.key j := rfl
@[simp] theorem State.setPc_reg (s : State) (w : Word) (q : Reg) : (s.setPc w).reg q = s.reg q := rfl
@[simp] theorem State.setPc_key (s : State) (w : Word) (j : Key) : (s.setPc w).key j = s.key j := rfl
@[simp] theorem State.setSp_reg (s : State) (b : Byte) (q : Reg) : (s.setSp b).reg q = s.reg q := rfl
@[simp] theorem State.setSp_key (s : State) (b : Byte) (j : Key) : (s.setSp b).key j = s.key j := rfl
@[simp] theorem State.setDt_reg (s : State) (b : Byte) (q : Reg) : (s.setDt b).reg q = s.reg q := rfl
@[simp] theorem State.setDt_key (s : State) (b : Byte) (j : Key) : (s.setDt b).key j = s.key j := rfl
@[simp] theorem State.setSt_reg (s : State) (b : Byte) (q : Reg) : (s.setSt b).reg q = s.reg q := rfl
@[simp] theorem State.setSt_key (s : State) (b : Byte) (j : Key) : (s.setSt b).key j = s.key j := rfl
@[simp] theorem State.setMem_reg (s : State) (m : Memory) (q : Reg) : (s.setMem m).reg q = s.reg q := rfl
@[simp] theorem State.setMem_key (s : State) (m : Memory) (j : Key) : (s.setMem m).key j = s.key j := rfl
@[simp] theorem State.setKeys_reg (s : State) (k : Vector Bool 16) (q : Reg) : (s.setKeys k).reg q = s.reg q := rfl
@[simp] theorem State.setKeysPrev_reg (s : State) (k : Vector Bool 16) (q : Reg) : (s.setKeysPrev k).reg q = s.reg q := rfl
@[simp] theorem State.setKeysPrev_key (s : State) (k : Vector Bool 16) (j : Key) : (s.setKeysPrev k).key j = s.key j := rfl
@[simp] theorem State.setWaiting_reg (s : State) (b : Bool) (q : Reg) : (s.setWaiting b).reg q = s.reg q := rfl
@[simp] theorem State.setWaiting_key (s : State) (b : Bool) (j : Key) : (s.setWaiting b).key j = s.key j := rfl
@[simp] theorem State.nextDraw_reg (s : State) (q : Reg) : (s.nextDraw).reg q = s.reg q := rfl
@[simp] theorem State.nextDraw_key (s : State) (j : Key) : (s.nextDraw).key j = s.key j := rfl
@[simp] theorem State.raise_reg (s : State) (r : Fault) (q : Reg) : (s.raise r).reg q = s.reg q := rfl
@[simp] theorem State.raise_key (s : State) (r : Fault) (j : Key) : (s.raise r).key j = s.key j := rfl
@[simp] theorem State.advance_reg (s : State) (q : Reg) : (s.advance).reg q = s.reg q := rfl
@[simp] theorem State.advance_key (s : State) (j : Key) : (s.advance).key j = s.key j := rfl
@[simp] theorem State.skipIf_reg (s : State) (c : Bool) (q : Reg) : (s.skipIf c).reg q = s.reg q := rfl
@[simp] theorem State.skipIf_key (s : State) (c : Bool) (j : Key) : (s.skipIf c).key j = s.key j := rfl

/-- Read after write of the register file. -/
@[simp] theorem State.setReg_reg (s : State) (r : Reg) (b : Byte) (q : Reg) :
    (s.setReg r b).reg q = if q = r then b else s.reg q := by
  simp [State.reg, State.setReg, Vector.getElem_set, Fin.ext_iff, eq_comm]

@[simp] theorem State.setFlag_reg (s : State) (f : Bool) (q : Reg) :
    (s.setFlag f).reg q = if q = flagReg then (if f then 1 else 0) else s.reg q := by
  simp [State.setFlag]

@[simp] theorem State.setRegs_reg (s : State) (w : Vector Byte 16) (q : Reg) : (s.setRegs w).reg q = w[q] := rfl

@[simp] theorem State.setKeys_key (s : State) (w : Vector Bool 16) (k : Key) : (s.setKeys w).key k = w[k] := rfl

@[simp] theorem State.setPc_self (s : State) : s.setPc s.pc = s := rfl

@[simp] theorem State.setMem_self (s : State) : s.setMem s.mem = s := rfl

/-- The reset state's fields (spec/10_state.md R40). -/
@[simp] theorem State.reset_mem : State.reset.mem = [] := rfl
@[simp] theorem State.reset_i : State.reset.i = 0 := rfl
@[simp] theorem State.reset_pc : State.reset.pc = 0x0200 := rfl
@[simp] theorem State.reset_sp : State.reset.sp = 0 := rfl
@[simp] theorem State.reset_waiting : State.reset.waiting = false := rfl
@[simp] theorem State.reset_fault : State.reset.fault = none := rfl
@[simp] theorem State.reset_reg (q : Reg) : State.reset.reg q = 0 := by simp [State.reg, State.reset]
@[simp] theorem State.reset_key (k : Key) : State.reset.key k = false := by simp [State.key, State.reset]

/-- Two states that agree on every field are equal. -/
theorem State.eq_of_fields {s t : State} (hmem : s.mem = t.mem) (hv : s.v = t.v) (hi : s.i = t.i) (hpc : s.pc = t.pc)
    (hsp : s.sp = t.sp) (hdt : s.dt = t.dt) (hst : s.st = t.st) (hk : s.keys = t.keys)
    (hkp : s.keysPrev = t.keysPrev) (hw : s.waiting = t.waiting) (hf : s.fault = t.fault)
    (hd : s.draws = t.draws) : s = t := by
  cases s; cases t; simp_all

end Sys2Proof.Machine
end

