-- ==== Sys2Proof/Laws/Ops.lean ====
section
/-! SUPPORT. For each shared operation, what it answers: the fetch, the range checks, key lookup, the loops of CLS and of the
register transfers. -/

namespace Sys2Proof.Machine

/-! ### Settling, raising -/

@[simp] theorem settle_ok (t : State) : settle (.ok t) = .next t := rfl

@[simp] theorem settle_pure (t : State) : settle (pure t) = .next t := rfl

@[simp] theorem settle_error (r : Fault) : settle (.error r) = .fault r := rfl

/-! ### Byte order -/

theorem pair_toNat (hi lo : Byte) : (pair hi lo).toNat = hi.toNat * 256 + lo.toNat := by
  have := hi.isLt
  have := lo.isLt
  simp only [pair, BitVec.toNat_ofNat]
  omega

theorem hiByte_toNat (w : Word) : (hiByte w).toNat = w.toNat / 256 := by
  have := w.isLt
  simp [hiByte, BitVec.extractLsb, Nat.shiftRight_eq_div_pow]
  omega

theorem loByte_toNat (w : Word) : (loByte w).toNat = w.toNat % 256 := by
  simp [loByte, BitVec.extractLsb]

/-- The two halves of a word make it up again. -/
theorem pair_hiByte_loByte (w : Word) : pair (hiByte w) (loByte w) = w := by
  apply BitVec.eq_of_toNat_eq
  rw [pair_toNat, hiByte_toNat, loByte_toNat]
  omega

theorem zextAddr_toNat (nnn : Addr) : (zextAddr nnn).toNat = nnn.toNat := by
  have := nnn.isLt
  simp [zextAddr]
  omega

theorem zextByte_toNat (b : Byte) : (zextByte b).toNat = b.toNat := by
  have := b.isLt
  simp [zextByte]
  omega

/-- Both bytes of every stack slot lie in memory, whatever SP is (spec/60_exceptions.md R240). -/
theorem stackSlot_le (sp : Byte) : stackSlot sp + 1 ≤ 0xFFF := by
  have := sp.isLt
  simp only [stackSlot]
  omega

/-! ### Fetch -/

/-- Inside memory the fetch always succeeds (R101). -/
theorem fetch_ok {s : State} (h : s.pc.toNat ≤ 0xFFE) :
    fetch s = .ok (decode (Memory.read s.mem s.pc.toNat) (Memory.read s.mem (s.pc.toNat + 1))) := by
  rw [fetch, if_neg (by omega), memRead_ok _ (by omega), bind_ok, memRead_ok _ (by omega), bind_ok]
  rfl

theorem fetch_error {s : State} (h : 0xFFE < s.pc.toNat) : fetch s = .error (.fetchOutOfRange s.pc) := by
  rw [fetch, if_pos h]

/-- The fetch reads memory and the PC, and nothing else. -/
theorem fetch_congr {s t : State} (hmem : t.mem = s.mem) (hpc : t.pc = s.pc) : fetch t = fetch s := by
  simp only [fetch, hmem, hpc]

/-! ### Range checks and key lookup -/

theorem checkSpan_ok {base last : Nat} (h : base + last ≤ 0xFFF) : checkSpan base last = .ok () := by
  simp [checkSpan]; omega

theorem checkSpan_error {base last : Nat} (h : 0xFFF < base + last) :
    checkSpan base last = .error (.dataOutOfRange 0x1000) := by
  simp [checkSpan, h]

theorem checkSprite_ok {base n : Nat} (h : ∀ r, r < n → base + r ≤ 0xFFF) : checkSprite base n = .ok () := by
  have : (List.range n).find? (fun r => decide (0xFFF < base + r)) = none := by
    rw [List.find?_eq_none]
    intro r hr
    have := h r (List.mem_range.1 hr)
    simp; omega
  simp [checkSprite, this]

/-- The fault of the sprite check records the address of the first row above memory. -/
theorem checkSprite_error {base n r : Nat} (hr : r < n) (h : 0xFFF < base + r) (hq : ∀ q, q < r → base + q ≤ 0xFFF) :
    checkSprite base n = .error (.dataOutOfRange (base + r)) := by
  have : (List.range n).find? (fun r => decide (0xFFF < base + r)) = some r := by
    rw [List.find?_range_eq_some]
    refine ⟨by simpa using h, by simpa using hr, fun q hqr => ?_⟩
    have := hq q hqr
    simp; omega
  simp [checkSprite, this]

/-- A sprite check answers that all is well or names a first row above memory. -/
theorem checkSprite_cases (base n : Nat) :
    (checkSprite base n = .ok () ∧ ∀ r, r < n → base + r ≤ 0xFFF) ∨
    ∃ r, r < n ∧ 0xFFF < base + r ∧ (∀ q, q < r → base + q ≤ 0xFFF) ∧
      checkSprite base n = .error (.dataOutOfRange (base + r)) := by
  cases h : (List.range n).find? (fun r => decide (0xFFF < base + r)) with
  | none =>
    refine .inl ⟨by simp [checkSprite, h], fun r hr => ?_⟩
    have := List.find?_eq_none.1 h r (List.mem_range.2 hr)
    simpa using this
  | some r =>
    rw [List.find?_range_eq_some] at h
    obtain ⟨h1, h2, h3⟩ := h
    refine .inr ⟨r, by simpa using h2, by simpa using h1, fun q hq => ?_, ?_⟩
    · simpa using h3 q hq
    · exact checkSprite_error (by simpa using h2) (by simpa using h1) fun q hq => by simpa using h3 q hq

theorem keyIndex_ok {v : Byte} {k : Key} (h : v.toNat = k.val) : keyIndex v = .ok k := by
  have hk := k.isLt
  rw [keyIndex, dif_pos (by omega)]
  simp [h]

theorem keyIndex_error {v : Byte} (h : 15 < v.toNat) : keyIndex v = .error (.keyIndexOutOfRange v) := by
  rw [keyIndex, dif_neg (by omega)]

theorem keyIndex_cases (v : Byte) :
    (∃ k : Key, v.toNat = k.val ∧ keyIndex v = .ok k) ∨
    (15 < v.toNat ∧ keyIndex v = .error (.keyIndexOutOfRange v)) := by
  by_cases h : v.toNat < 16
  · exact .inl ⟨⟨v.toNat, h⟩, rfl, keyIndex_ok rfl⟩
  · exact .inr ⟨by omega, keyIndex_error (by omega)⟩

theorem mem_allKeys (k : Key) : k ∈ allKeys := by revert k; decide

/-- No key is reported exactly when the snapshots agree. -/
theorem firstChangedKey_eq_none {now before : Vector Bool 16} :
    firstChangedKey now before = none ↔ ∀ k : Key, now[k] = before[k] := by
  simp [firstChangedKey, List.find?_eq_none, mem_allKeys]

theorem allKeys_eq : allKeys = List.finRange 16 := by decide

/-- The reported key is the lowest one that differs. -/
theorem firstChangedKey_eq_some {now before : Vector Bool 16} {k : Key} (h : now[k] ≠ before[k])
    (hl : ∀ j : Key, j < k → now[j] = before[j]) : firstChangedKey now before = some k := by
  have hs : allKeys.Pairwise (· < ·) := by decide
  obtain ⟨l₁, l₂, hl'⟩ := List.append_of_mem (mem_allKeys k)
  rw [firstChangedKey, List.find?_eq_some_iff_append]
  refine ⟨by simpa using h, l₁, l₂, hl', fun j hj => ?_⟩
  rw [hl', List.pairwise_append] at hs
  simpa using hl j (hs.2.2 j hj k (by simp))

/-! ### The loops of the transfers -/

theorem mem_regsUpTo {x r : Reg} : r ∈ regsUpTo x ↔ r ≤ x := by
  have : r ∈ allRegs := by revert r; decide
  simp [regsUpTo, this]

theorem regsUpTo_nodup (x : Reg) : (regsUpTo x).Nodup := by
  have : allRegs.Nodup := by decide
  exact this.filter _

/-- LD [I]'s loop never faults inside memory; it is the plain fold of its writes. -/
theorem storeRegs_ok {s : State} {x : Reg} (h : s.i.toNat + x.val ≤ 0xFFF) :
    (regsUpTo x).foldlM (fun m r => memWrite m (s.i.toNat + r.val) (s.reg r)) s.mem =
      .ok ((regsUpTo x).foldl (fun m r => Memory.write m (s.i.toNat + r.val) (s.reg r)) s.mem) := by
  refine foldlM_ok _ _ fun r hr m => memWrite_ok m ?_ _
  have := Fin.le_def.1 (mem_regsUpTo.1 hr)
  omega

/-- What LD [I] leaves at an address. -/
theorem read_storeRegs (s : State) (x : Reg) (a : Nat) :
    Memory.read ((regsUpTo x).foldl (fun m r => Memory.write m (s.i.toNat + r.val) (s.reg r)) s.mem) a =
      if h : s.i.toNat ≤ a ∧ a ≤ s.i.toNat + x.val then s.reg ⟨a - s.i.toNat, by omega⟩
      else Memory.read s.mem a := by
  rw [Memory.read_foldl_write]
  split
  · rename_i r hr
    have h1 := List.find?_some hr
    have h2 := mem_regsUpTo.1 (List.mem_reverse.1 (List.mem_of_find?_eq_some hr))
    have h3 := Fin.le_def.1 h2
    simp only [decide_eq_true_eq] at h1
    rw [dif_pos (by omega)]
    congr 1
    apply Fin.ext
    show r.val = a - s.i.toNat
    omega
  · rename_i hn
    rw [dif_neg]
    intro h
    have := List.find?_eq_none.1 hn ⟨a - s.i.toNat, by omega⟩
      (List.mem_reverse.2 (mem_regsUpTo.2 (Fin.le_def.2 (show a - s.i.toNat ≤ x.val by omega))))
    simp at this
    omega

theorem wf_storeRegs {s : State} {x : Reg} (hwf : Memory.wf s.mem = true) (h : s.i.toNat + x.val ≤ 0xFFF) :
    Memory.wf ((regsUpTo x).foldl (fun m r => Memory.write m (s.i.toNat + r.val) (s.reg r)) s.mem) = true := by
  refine foldl_keeps (P := fun m => Memory.wf m = true) _ _ hwf fun r hr m hm => Memory.wf_write hm ?_ _
  have := Fin.le_def.1 (mem_regsUpTo.1 hr)
  omega

/-- LD Vx, [I]'s loop never faults inside memory; it is the plain fold of its loads. -/
theorem loadRegs_ok {s : State} {x : Reg} (h : s.i.toNat + x.val ≤ 0xFFF) :
    (regsUpTo x).foldlM
        (fun v r => do
          let b ← memRead s.mem (s.i.toNat + r.val)
          pure (v.set r b)) s.v =
      .ok ((regsUpTo x).foldl (fun (v : Vector Byte 16) (r : Reg) => v.set r (Memory.read s.mem (s.i.toNat + r.val))) s.v) := by
  refine foldlM_ok _ _ fun r hr v => ?_
  have := Fin.le_def.1 (mem_regsUpTo.1 hr)
  rw [memRead_ok _ (by omega)]
  rfl

/-- What LD Vx, [I] leaves in a register. -/
theorem reg_loadRegs (s : State) (x q : Reg) :
    ((regsUpTo x).foldl (fun (v : Vector Byte 16) (r : Reg) => v.set r (Memory.read s.mem (s.i.toNat + r.val))) s.v)[q] =
      if q ≤ x then Memory.read s.mem (s.i.toNat + q.val) else s.reg q := by
  have key : ∀ (l : List Reg) (v : Vector Byte 16),
      (l.foldl (fun (v : Vector Byte 16) (r : Reg) => v.set r (Memory.read s.mem (s.i.toNat + r.val))) v)[q] =
        if q ∈ l then Memory.read s.mem (s.i.toNat + q.val) else v[q] := by
    intro l
    induction l with
    | nil => simp
    | cons r l ih =>
      intro v
      rw [List.foldl_cons, ih]
      by_cases hq : q ∈ l
      · simp [hq]
      · by_cases hr : q = r
        · subst hr; simp
        · have : ¬(r.val = q.val) := fun h => hr (Fin.ext h.symm)
          simp [hq, hr, this]
  rw [key]
  simp [mem_regsUpTo, State.reg]

/-! ### CLS -/

theorem mem_framebufferAddrs {a : Nat} : a ∈ framebufferAddrs ↔ 0xF00 ≤ a ∧ a ≤ 0xFFF := by
  simp [framebufferAddrs, List.mem_range'_1]
  omega

/-- What CLS makes of memory, as a plain fold; kept folded, so that no proof computes 256 writes. -/
@[irreducible] def clearScreen (m : Memory) : Memory := framebufferAddrs.foldl (fun m a => Memory.write m a 0x00) m

theorem clear_ok (m : Memory) :
    framebufferAddrs.foldlM (fun m a => memWrite m a 0x00) m =
      .ok (clearScreen m) := by
  unfold clearScreen
  exact foldlM_ok _ _ fun _ ha m => memWrite_ok m (mem_framebufferAddrs.1 ha).2 _

theorem read_clear (m : Memory) (a : Nat) :
    Memory.read (clearScreen m) a =
      if 0xF00 ≤ a ∧ a ≤ 0xFFF then 0 else Memory.read m a := by
  unfold clearScreen
  rw [Memory.read_foldl_write (fun a => a) (fun _ => 0x00)]
  split
  · rename_i b hb
    have h1 := List.find?_some hb
    have h2 := mem_framebufferAddrs.1 (List.mem_reverse.1 (List.mem_of_find?_eq_some hb))
    simp only [decide_eq_true_eq] at h1
    rw [if_pos (by omega)]
  · rename_i hn
    rw [if_neg]
    intro h
    have := List.find?_eq_none.1 hn a (List.mem_reverse.2 (mem_framebufferAddrs.2 h))
    simp at this

theorem wf_clear {m : Memory} (h : Memory.wf m = true) :
    Memory.wf (clearScreen m) = true := by
  unfold clearScreen
  exact foldl_keeps (P := fun m => Memory.wf m = true) _ _ h fun _ ha _ hm =>
    Memory.wf_write hm (mem_framebufferAddrs.1 ha).2 _

end Sys2Proof.Machine
end

