-- ==== Sys2Proof/Laws/Draw.lean ====
section
/-! SUPPORT. The sprite draw: neither form of it faults once the range check has passed; what one row does to the display; and
that the display and the bytes outside it determine a canonical memory. -/

namespace Sys2Proof.Machine

open Sys2Proof.Claims

/-! ### The display view -/

theorem lit_eq (m : Memory) (px py : Nat) :
    lit m px py = (Memory.read m (pixelAddr px py)).getLsbD (pixelBit px) := rfl

/-- Every pixel lies in the framebuffer (spec/43_draw.md R171). -/
theorem pixelAddr_range {px py : Nat} (hx : px < 64) (hy : py < 32) :
    0xF00 ≤ pixelAddr px py ∧ pixelAddr px py ≤ 0xFFF := by
  simp only [pixelAddr]; omega

/-- Different pixels are different bits. -/
theorem pixel_inj {px py qx qy : Nat} (hx : px < 64) (hqx : qx < 64)
    (ha : pixelAddr px py = pixelAddr qx qy) (hb : pixelBit px = pixelBit qx) : px = qx ∧ py = qy := by
  simp only [pixelAddr, pixelBit] at *; omega

/-- Every bit of the framebuffer is a pixel. -/
theorem exists_pixel {a j : Nat} (ha : 0xF00 ≤ a) (ha' : a ≤ 0xFFF) (hj : j < 8) :
    ∃ px py, px < 64 ∧ py < 32 ∧ pixelAddr px py = a ∧ pixelBit px = j := by
  refine ⟨(a - 0xF00) % 8 * 8 + (7 - j), (a - 0xF00) / 8, by omega, by omega, ?_, ?_⟩
  · simp only [pixelAddr]; omega
  · have : ∀ k j : Nat, j < 8 → 7 - (k * 8 + (7 - j)) % 8 = j := by intro k j hj; omega
    exact this _ _ hj

/-- Canonical memories with the same display and the same bytes outside it are equal. -/
theorem Memory.eq_of_lit {m m' : Memory} (h : Memory.wf m = true) (h' : Memory.wf m' = true)
    (hl : ∀ px py, px < 64 → py < 32 → lit m px py = lit m' px py)
    (ho : ∀ a, (a < 0xF00 ∨ 0xFFF < a) → Memory.read m a = Memory.read m' a) : m = m' := by
  refine Memory.eq_of_read h h' fun a => ?_
  by_cases ha : a < 0xF00 ∨ 0xFFF < a
  · exact ho a ha
  · refine BitVec.eq_of_getLsbD_eq fun j hj => ?_
    obtain ⟨px, py, hx, hy, rfl, rfl⟩ := exists_pixel (a := a) (by omega) (by omega) hj
    exact hl px py hx hy

/-- A row drawn on a canonical memory has one canonical outcome. -/
theorem RowDrawn.unique {m m₁ m₂ : Memory} {a ox oy : Nat} (h₁ : RowDrawn m m₁ a ox oy) (h₂ : RowDrawn m m₂ a ox oy)
    (w₁ : Memory.wf m₁ = true) (w₂ : Memory.wf m₂ = true) : m₁ = m₂ := by
  refine Memory.eq_of_lit w₁ w₂ (fun px py hx hy => ?_) fun b hb => (h₁.2.2 b hb).trans (h₂.2.2 b hb).symm
  by_cases hc : Covers (Memory.read m a) ox oy px py
  · rw [h₁.1 px py hx hy hc, h₂.1 px py hx hy hc]
  · rw [h₁.2.1 px py hx hy hc, h₂.2.1 px py hx hy hc]

/-! ### One pixel -/

/-- The plain form of drawPixel. -/
def plotPixel (ox oy r : Nat) (sprite : Byte) (acc : DrawAcc) (c : Nat) : DrawAcc :=
  if sprite.getLsbD (7 - c) then
    let px := (ox + c) % 64
    let py := (oy + r) % 32
    let old := Memory.read acc.1 (pixelAddr px py)
    (Memory.write acc.1 (pixelAddr px py) (old ^^^ (1#8 <<< pixelBit px)), acc.2 || old.getLsbD (pixelBit px))
  else acc

theorem drawPixel_ok (ox oy r : Nat) (sprite : Byte) (acc : DrawAcc) (c : Nat) :
    drawPixel ox oy r sprite acc c = .ok (plotPixel ox oy r sprite acc c) := by
  have h := pixelAddr_range (Nat.mod_lt (ox + c) (by decide : 0 < 64)) (Nat.mod_lt (oy + r) (by decide : 0 < 32))
  unfold drawPixel plotPixel
  split
  · dsimp only
    rw [memRead_ok _ h.2, bind_ok, memWrite_ok _ h.2, bind_ok]; rfl
  · rfl

/-- Toggling one pixel toggles that pixel and no other. -/
theorem lit_toggle (m : Memory) {px py qx qy : Nat} (hx : px < 64) (hqx : qx < 64) :
    lit (Memory.write m (pixelAddr px py) (Memory.read m (pixelAddr px py) ^^^ (1#8 <<< pixelBit px))) qx qy =
      (lit m qx qy ^^ decide (qx = px ∧ qy = py)) := by
  have hb : pixelBit qx < 8 := by simp only [pixelBit]; omega
  rw [lit_eq, lit_eq, Memory.read_write]
  by_cases ha : pixelAddr qx qy = pixelAddr px py
  · rw [if_pos ha, BitVec.getLsbD_xor, ha]
    congr 1
    simp only [BitVec.getLsbD_shiftLeft, BitVec.getLsbD_one]
    by_cases hbit : pixelBit qx = pixelBit px
    · obtain ⟨rfl, rfl⟩ := pixel_inj hqx hx ha hbit
      simp [hb]
    · have : ¬(qx = px ∧ qy = py) := fun h => hbit (by rw [h.1])
      simp only [this, decide_false]
      by_cases hlt : pixelBit qx < pixelBit px
      · simp [hlt]
      · have : ¬(pixelBit qx - pixelBit px = 0) := by omega
        simp [this]
  · have : ¬(qx = px ∧ qy = py) := fun h => ha (by rw [h.1, h.2])
    rw [if_neg ha]
    simp [this]

/-! ### One row, by pixels -/

/-- The plain form of drawRow. -/
def plotRow (base ox oy : Nat) (acc : DrawAcc) (r : Nat) : DrawAcc :=
  (List.range 8).foldl (plotPixel ox oy r (Memory.read acc.1 (base + r))) acc

theorem drawRow_ok {base r : Nat} (h : base + r ≤ 0xFFF) (ox oy : Nat) (acc : DrawAcc) :
    drawRow base ox oy acc r = .ok (plotRow base ox oy acc r) := by
  rw [drawRow, memRead_ok _ h, bind_ok]
  exact foldlM_ok _ _ fun c _ acc => drawPixel_ok ox oy r _ acc c

theorem drawRows_ok {base n : Nat} (h : ∀ r, r < n → base + r ≤ 0xFFF) (ox oy : Nat) (m : Memory) :
    drawRows base ox oy n m = .ok ((List.range n).foldl (plotRow base ox oy) (m, false)) :=
  foldlM_ok _ _ fun r hr acc => drawRow_ok (h r (List.mem_range.1 hr)) ox oy acc

/-- What the first k columns of a row have done. -/
theorem plotPixels_spec (ox oy r : Nat) (sprite : Byte) (acc : DrawAcc) (k : Nat) (hk : k ≤ 8) :
    let after := (List.range k).foldl (plotPixel ox oy r sprite) acc
    (∀ px py, px < 64 → py < 32 → lit after.1 px py = (lit acc.1 px py ^^
      decide (py = (oy + r) % 32 ∧ ∃ c, c < k ∧ sprite.getLsbD (7 - c) = true ∧ px = (ox + c) % 64))) ∧
    (∀ b, (b < 0xF00 ∨ 0xFFF < b) → Memory.read after.1 b = Memory.read acc.1 b) ∧
    (after.2 = true ↔ acc.2 = true ∨ ∃ c, c < k ∧ sprite.getLsbD (7 - c) = true ∧
      lit acc.1 ((ox + c) % 64) ((oy + r) % 32) = true) ∧
    (Memory.wf acc.1 = true → Memory.wf after.1 = true) := by
  induction k with
  | zero => simp
  | succ k ih =>
    obtain ⟨ih1, ih2, ih3, ih4⟩ := ih (by omega)
    simp only [List.range_succ, List.foldl_append, List.foldl_cons, List.foldl_nil] at *
    generalize (List.range k).foldl (plotPixel ox oy r sprite) acc = mid at *
    have hx : (ox + k) % 64 < 64 := Nat.mod_lt _ (by decide)
    have hy : (oy + r) % 32 < 32 := Nat.mod_lt _ (by decide)
    have hr := pixelAddr_range hx hy
    unfold plotPixel
    by_cases hb : sprite.getLsbD (7 - k) = true
    · simp only [hb, if_true]
      refine ⟨fun px py hpx hpy => ?_, fun b hb' => ?_, ?_, fun hwf => Memory.wf_write (ih4 hwf) hr.2 _⟩
      · rw [lit_toggle _ hx hpx, ih1 px py hpx hpy, Bool.xor_assoc]
        congr 1
        by_cases hnew : px = (ox + k) % 64 ∧ py = (oy + r) % 32
        · have hold : ¬(py = (oy + r) % 32 ∧
              ∃ c, c < k ∧ sprite.getLsbD (7 - c) = true ∧ px = (ox + c) % 64) := by
            rintro ⟨-, c, hc, -, hp⟩; omega
          rw [decide_eq_false hold, decide_eq_true hnew, Bool.false_xor, eq_comm, decide_eq_true_eq]
          exact ⟨hnew.2, k, by omega, hb, hnew.1⟩
        · rw [decide_eq_false hnew, Bool.xor_false]
          rw [decide_eq_decide]
          refine and_congr_right fun hpy' => ⟨?_, ?_⟩
          · rintro ⟨c, hc, h⟩; exact ⟨c, by omega, h⟩
          · rintro ⟨c, hc, h1, h2⟩
            refine ⟨c, ?_, h1, h2⟩
            rcases Nat.lt_succ_iff_lt_or_eq.1 hc with h | h
            · exact h
            · subst h; exact absurd ⟨h2, hpy'⟩ hnew
      · rw [Memory.read_write, if_neg (by omega)]
        exact ih2 b hb'
      · have hlit : (Memory.read mid.1 (pixelAddr ((ox + k) % 64) ((oy + r) % 32))).getLsbD
            (pixelBit ((ox + k) % 64)) = lit acc.1 ((ox + k) % 64) ((oy + r) % 32) := by
          rw [← lit_eq, ih1 _ _ hx hy, decide_eq_false, Bool.xor_false]
          rintro ⟨-, c, hc, -, hp⟩; omega
        rw [hlit, Bool.or_eq_true, ih3, or_assoc]
        refine or_congr_right ⟨?_, ?_⟩
        · rintro (⟨c, hc, h⟩ | h)
          · exact ⟨c, by omega, h⟩
          · exact ⟨k, by omega, hb, h⟩
        · rintro ⟨c, hc, h1, h2⟩
          rcases Nat.lt_succ_iff_lt_or_eq.1 hc with h | h
          · exact .inl ⟨c, h, h1, h2⟩
          · subst h; exact .inr h2
    · simp only [hb]
      have hsame : ∀ P : Nat → Prop, (∃ c, c < k + 1 ∧ sprite.getLsbD (7 - c) = true ∧ P c) ↔
          ∃ c, c < k ∧ sprite.getLsbD (7 - c) = true ∧ P c := by
        intro P
        constructor
        · rintro ⟨c, hc, h1, h2⟩
          refine ⟨c, ?_, h1, h2⟩
          rcases Nat.lt_succ_iff_lt_or_eq.1 hc with h | h
          · exact h
          · subst h; exact absurd h1 hb
        · rintro ⟨c, hc, h⟩; exact ⟨c, by omega, h⟩
      simp only [hsame]
      exact ⟨ih1, ih2, ih3, ih4⟩

/-- A row by pixels is the row of the rule: it toggles the covered pixels, raises the collision exactly on a covered lit pixel,
and keeps the canonical form. -/
theorem plotRow_spec (base ox oy : Nat) (acc : DrawAcc) (r : Nat) :
    RowDrawn acc.1 (plotRow base ox oy acc r).1 (base + r) ox (oy + r) ∧
    ((plotRow base ox oy acc r).2 = true ↔ acc.2 = true ∨ ∃ px py, px < 64 ∧ py < 32 ∧ lit acc.1 px py = true ∧
      Covers (Memory.read acc.1 (base + r)) ox (oy + r) px py) ∧
    (Memory.wf acc.1 = true → Memory.wf (plotRow base ox oy acc r).1 = true) := by
  obtain ⟨h1, h2, h3, h4⟩ := plotPixels_spec ox oy r (Memory.read acc.1 (base + r)) acc 8 (by omega)
  refine ⟨⟨fun px py hx hy hc => ?_, fun px py hx hy hc => ?_, h2⟩, ?_, h4⟩
  · exact (h1 px py hx hy).trans (by rw [decide_eq_true (show _ from hc), Bool.xor_true])
  · exact (h1 px py hx hy).trans (by rw [decide_eq_false (show ¬_ from hc), Bool.xor_false])
  · refine h3.trans (or_congr_right ⟨?_, ?_⟩)
    · rintro ⟨c, hc, hb, hl⟩
      exact ⟨_, _, Nat.mod_lt _ (by decide), Nat.mod_lt _ (by decide), hl, rfl, c, hc, hb, rfl⟩
    · rintro ⟨px, py, -, -, hl, rfl, c, hc, hb, rfl⟩
      exact ⟨c, hc, hb, hl⟩

/-! ### One row, by bytes -/

/-- The plain form of xorByte. -/
def mergeByte (acc : DrawAcc) (a : Nat) (bits : Byte) : DrawAcc :=
  (Memory.write acc.1 a (Memory.read acc.1 a ^^^ bits), acc.2 || (Memory.read acc.1 a &&& bits) != 0)

theorem xorByte_ok {a : Nat} (h : a ≤ 0xFFF) (acc : DrawAcc) (bits : Byte) :
    xorByte acc a bits = .ok (mergeByte acc a bits) := by
  rw [xorByte, memRead_ok _ h, bind_ok, memWrite_ok _ h, bind_ok]; rfl

/-- The plain form of drawRowBytes. -/
def mergeRow (base ox oy : Nat) (acc : DrawAcc) (r : Nat) : DrawAcc :=
  let sprite := Memory.read acc.1 (base + r)
  let row := 0xF00 + 8 * ((oy + r) % 32)
  let left := mergeByte acc (row + ox % 64 / 8) (sprite >>> (ox % 8))
  if ox % 8 = 0 then left else mergeByte left (row + (ox % 64 / 8 + 1) % 8) (sprite <<< (8 - ox % 8))

theorem drawRowBytes_ok {base r : Nat} (h : base + r ≤ 0xFFF) (ox oy : Nat) (acc : DrawAcc) :
    drawRowBytes base ox oy acc r = .ok (mergeRow base ox oy acc r) := by
  have h1 : 0xF00 + 8 * ((oy + r) % 32) + ox % 64 / 8 ≤ 0xFFF := by omega
  have h2 : 0xF00 + 8 * ((oy + r) % 32) + (ox % 64 / 8 + 1) % 8 ≤ 0xFFF := by omega
  simp only [drawRowBytes, memRead_ok _ h, bind_ok, xorByte_ok h1]
  unfold mergeRow
  split
  · rfl
  · rw [xorByte_ok h2]

theorem drawRowsBytes_ok {base n : Nat} (h : ∀ r, r < n → base + r ≤ 0xFFF) (ox oy : Nat) (m : Memory) :
    drawRowsBytes base ox oy n m = .ok ((List.range n).foldl (mergeRow base ox oy) (m, false)) :=
  foldlM_ok _ _ fun r hr acc => drawRowBytes_ok (h r (List.mem_range.1 hr)) ox oy acc

/-- The display after bits are merged into one framebuffer byte. -/
theorem lit_mergeByte (acc : DrawAcc) (a : Nat) (bits : Byte) (px py : Nat) :
    lit (mergeByte acc a bits).1 px py =
      (lit acc.1 px py ^^ (decide (pixelAddr px py = a) && bits.getLsbD (pixelBit px))) := by
  rw [lit_eq, lit_eq, mergeByte, Memory.read_write]
  by_cases h : pixelAddr px py = a
  · rw [if_pos h, BitVec.getLsbD_xor, h]; simp
  · rw [if_neg h]; simp [h]

/-- A byte overlaps exactly when some bit does. -/
theorem and_ne_zero_iff (a b : Byte) : (a &&& b) != 0 ↔ ∃ j, j < 8 ∧ a.getLsbD j = true ∧ b.getLsbD j = true := by
  simp only [bne_iff_ne, ne_eq]
  constructor
  · intro h
    by_contra hc
    refine h (BitVec.eq_of_getLsbD_eq fun j hj => ?_)
    simp only [BitVec.getLsbD_and, BitVec.ofNat_eq_ofNat, BitVec.getLsbD_zero]
    by_contra hb
    rw [Bool.not_eq_false, Bool.and_eq_true] at hb
    exact hc ⟨j, hj, hb⟩
  · rintro ⟨j, hj, h1, h2⟩ h
    have : (a &&& b).getLsbD j = false := by rw [h]; simp
    simp [h1, h2] at this

/-- The bit of the left part of a row: the columns that stay in the origin's byte. -/
theorem left_bit (sprite : Byte) (ox px : Nat) (hx : px < 64) (h : px / 8 = ox % 64 / 8) :
    (sprite >>> (ox % 8)).getLsbD (pixelBit px) = true ↔
      ∃ c, c < 8 ∧ sprite.getLsbD (7 - c) = true ∧ px = (ox + c) % 64 := by
  simp only [BitVec.getLsbD_ushiftRight, pixelBit]
  constructor
  · intro hb
    have hlt : ox % 8 + (7 - px % 8) < 8 := BitVec.lt_of_getLsbD hb
    refine ⟨px % 8 - ox % 8, by omega, ?_, by omega⟩
    rwa [show 7 - (px % 8 - ox % 8) = ox % 8 + (7 - px % 8) by omega]
  · rintro ⟨c, hc, hb, rfl⟩
    rwa [show ox % 8 + (7 - (ox + c) % 64 % 8) = 7 - c by omega]

/-- The bit of the right part: the columns that spill into the next byte. -/
theorem right_bit (sprite : Byte) (ox px : Nat) (hx : px < 64)
    (h : px / 8 = (ox % 64 / 8 + 1) % 8) :
    (sprite <<< (8 - ox % 8)).getLsbD (pixelBit px) = true ↔
      ∃ c, c < 8 ∧ sprite.getLsbD (7 - c) = true ∧ px = (ox + c) % 64 := by
  have hp : pixelBit px < 8 := by simp only [pixelBit]; omega
  simp only [BitVec.getLsbD_shiftLeft, hp, decide_true, Bool.true_and, Bool.and_eq_true, Bool.not_eq_true',
    decide_eq_false_iff_not]
  simp only [pixelBit]
  constructor
  · rintro ⟨hlt, hb⟩
    refine ⟨px % 8 + (8 - ox % 8), by omega, ?_, by omega⟩
    rwa [show 7 - (px % 8 + (8 - ox % 8)) = 7 - px % 8 - (8 - ox % 8) by omega]
  · rintro ⟨c, hc, hb, rfl⟩
    refine ⟨by omega, ?_⟩
    rwa [show 7 - (ox + c) % 64 % 8 - (8 - ox % 8) = 7 - c by omega]

/-- The columns of a row lie in the origin's byte or, when it is not byte-aligned, in the next. -/
theorem column_byte (ox c px : Nat) (hc : c < 8) (hp : px = (ox + c) % 64) :
    px / 8 = ox % 64 / 8 ∨ (ox % 8 ≠ 0 ∧ px / 8 = (ox % 64 / 8 + 1) % 8) := by omega

/-- A row by bytes is the row of the rule. -/
theorem mergeRow_spec (base ox oy : Nat) (acc : DrawAcc) (r : Nat) :
    RowDrawn acc.1 (mergeRow base ox oy acc r).1 (base + r) ox (oy + r) ∧
    ((mergeRow base ox oy acc r).2 = true ↔ acc.2 = true ∨ ∃ px py, px < 64 ∧ py < 32 ∧ lit acc.1 px py = true ∧
      Covers (Memory.read acc.1 (base + r)) ox (oy + r) px py) ∧
    (Memory.wf acc.1 = true → Memory.wf (mergeRow base ox oy acc r).1 = true) := by
  generalize hsp : Memory.read acc.1 (base + r) = sprite
  generalize hrow : 0xF00 + 8 * ((oy + r) % 32) = row
  have hy : (oy + r) % 32 < 32 := Nat.mod_lt _ (by decide)
  have hcol : ox % 64 / 8 < 8 := by omega
  have hcol1 : (ox % 64 / 8 + 1) % 8 < 8 := by omega
  have hne : ox % 64 / 8 ≠ (ox % 64 / 8 + 1) % 8 := by omega
  have ha : ∀ px py, px < 64 → py < 32 → ∀ k, k < 8 →
      (pixelAddr px py = row + k ↔ py = (oy + r) % 32 ∧ px / 8 = k) := by
    intro px py hx hpy k hk
    simp only [pixelAddr]; omega
  have hcov : ∀ px py, Covers sprite ox (oy + r) px py ↔ py = (oy + r) % 32 ∧
      ∃ c, c < 8 ∧ sprite.getLsbD (7 - c) = true ∧ px = (ox + c) % 64 := fun _ _ => Iff.rfl
  -- the display and the collision, in one statement on the two parts
  have hlit : ∀ px py, px < 64 → py < 32 → lit (mergeRow base ox oy acc r).1 px py =
      (lit acc.1 px py ^^ decide (Covers sprite ox (oy + r) px py)) := by
    intro px py hx hpy
    unfold mergeRow
    simp only [hsp, hrow]
    by_cases hs : ox % 8 = 0
    · rw [if_pos hs, lit_mergeByte]
      congr 1
      by_cases hin : py = (oy + r) % 32 ∧ px / 8 = ox % 64 / 8
      · rw [decide_eq_true ((ha px py hx hpy _ hcol).2 hin), Bool.true_and, Bool.eq_iff_iff, decide_eq_true_eq,
          left_bit sprite ox px hx hin.2, hcov]
        exact ⟨fun h => ⟨hin.1, h⟩, fun h => h.2⟩
      · rw [decide_eq_false (fun h => hin ((ha px py hx hpy _ hcol).1 h)), Bool.false_and, eq_comm,
          decide_eq_false_iff_not]
        rintro ⟨h1, c, hc, -, hp⟩
        rcases column_byte ox c px hc hp with h | h
        · exact hin ⟨h1, h⟩
        · exact h.1 hs
    · rw [if_neg hs, lit_mergeByte, lit_mergeByte, Bool.xor_assoc]
      congr 1
      by_cases hpr : py = (oy + r) % 32
      · by_cases hin : px / 8 = ox % 64 / 8
        · rw [decide_eq_true ((ha px py hx hpy _ hcol).2 ⟨hpr, hin⟩),
            decide_eq_false (fun h => hne (hin.symm.trans ((ha px py hx hpy _ hcol1).1 h).2)), Bool.true_and,
            Bool.false_and, Bool.xor_false, Bool.eq_iff_iff, decide_eq_true_eq, left_bit sprite ox px hx hin, hcov]
          exact ⟨fun h => ⟨hpr, h⟩, fun h => h.2⟩
        · by_cases hin1 : px / 8 = (ox % 64 / 8 + 1) % 8
          · rw [decide_eq_false (fun h => hin ((ha px py hx hpy _ hcol).1 h).2),
              decide_eq_true ((ha px py hx hpy _ hcol1).2 ⟨hpr, hin1⟩), Bool.true_and,
              Bool.false_and, Bool.false_xor, Bool.eq_iff_iff, decide_eq_true_eq,
              right_bit sprite ox px hx hin1, hcov]
            exact ⟨fun h => ⟨hpr, h⟩, fun h => h.2⟩
          · rw [decide_eq_false (fun h => hin ((ha px py hx hpy _ hcol).1 h).2),
              decide_eq_false (fun h => hin1 ((ha px py hx hpy _ hcol1).1 h).2), Bool.false_and, Bool.false_and,
              Bool.false_xor, eq_comm, decide_eq_false_iff_not]
            rintro ⟨-, c, hc, -, hp⟩
            rcases column_byte ox c px hc hp with h | h
            · exact hin h
            · exact hin1 h.2
      · rw [decide_eq_false (fun h => hpr ((ha px py hx hpy _ hcol).1 h).1),
          decide_eq_false (fun h => hpr ((ha px py hx hpy _ hcol1).1 h).1), Bool.false_and, Bool.false_and,
          Bool.false_xor, eq_comm, decide_eq_false_iff_not]
        exact fun h => hpr h.1
  have hpart : ∀ (acc' : DrawAcc) (k : Nat) (bits : Byte), k < 8 →
      (∀ px, px < 64 → px / 8 = k → lit acc'.1 px ((oy + r) % 32) = lit acc.1 px ((oy + r) % 32)) →
      ((mergeByte acc' (row + k) bits).2 = true ↔ acc'.2 = true ∨ ∃ px, px < 64 ∧ px / 8 = k ∧
        lit acc.1 px ((oy + r) % 32) = true ∧ bits.getLsbD (pixelBit px) = true) := by
    intro acc' k bits hk hsame
    simp only [mergeByte, Bool.or_eq_true, and_ne_zero_iff]
    refine or_congr_right ⟨?_, ?_⟩
    · rintro ⟨j, hj, h1, h2⟩
      have hp : pixelAddr (k * 8 + (7 - j)) ((oy + r) % 32) = row + k := by simp only [pixelAddr]; omega
      have hb : pixelBit (k * 8 + (7 - j)) = j := by simp only [pixelBit]; omega
      refine ⟨k * 8 + (7 - j), by omega, by omega, ?_, by rwa [hb]⟩
      rw [← hsame _ (by omega) (by omega), lit_eq, hp, hb]
      exact h1
    · rintro ⟨px, hx, hpk, h1, h2⟩
      refine ⟨pixelBit px, by simp only [pixelBit]; omega, ?_, h2⟩
      rw [← hsame px hx hpk, lit_eq, (ha px _ hx hy k hk).2 ⟨rfl, hpk⟩] at h1
      exact h1
  refine ⟨⟨fun px py hx hpy hc => ?_, fun px py hx hpy hc => ?_, fun b hb => ?_⟩, ?_, fun hwf => ?_⟩
  · rw [hlit px py hx hpy, decide_eq_true (hsp ▸ hc), Bool.xor_true]
  · rw [hlit px py hx hpy, decide_eq_false (hsp ▸ hc), Bool.xor_false]
  · have hb1 : b ≠ row + ox % 64 / 8 := by omega
    have hb2 : b ≠ row + (ox % 64 / 8 + 1) % 8 := by omega
    unfold mergeRow
    simp only [hrow]
    split <;> simp [mergeByte, hb1, hb2]
  · unfold mergeRow
    simp only [hsp, hrow]
    have hleft := hpart acc (ox % 64 / 8) (sprite >>> (ox % 8)) hcol fun _ _ _ => rfl
    by_cases hs : ox % 8 = 0
    · rw [if_pos hs, hleft]
      refine or_congr_right ⟨?_, ?_⟩
      · rintro ⟨px, hx, hk, hl, hb⟩
        exact ⟨px, _, hx, hy, hl, rfl, (left_bit sprite ox px hx hk).1 hb⟩
      · rintro ⟨px, py, hx, -, hl, rfl, c, hc, hb, hp⟩
        rcases column_byte ox c px hc hp with h | h
        · exact ⟨px, hx, h, hl, (left_bit sprite ox px hx h).2 ⟨c, hc, hb, hp⟩⟩
        · exact absurd hs h.1
    · rw [if_neg hs, hpart _ ((ox % 64 / 8 + 1) % 8) (sprite <<< (8 - ox % 8)) hcol1, hleft, or_assoc]
      · refine or_congr_right ⟨?_, ?_⟩
        · rintro (⟨px, hx, hk, hl, hb⟩ | ⟨px, hx, hk, hl, hb⟩)
          · exact ⟨px, _, hx, hy, hl, rfl, (left_bit sprite ox px hx hk).1 hb⟩
          · exact ⟨px, _, hx, hy, hl, rfl, (right_bit sprite ox px hx hk).1 hb⟩
        · rintro ⟨px, py, hx, -, hl, rfl, c, hc, hb, hp⟩
          rcases column_byte ox c px hc hp with h | h
          · exact .inl ⟨px, hx, h, hl, (left_bit sprite ox px hx h).2 ⟨c, hc, hb, hp⟩⟩
          · exact .inr ⟨px, hx, h.2, hl, (right_bit sprite ox px hx h.2).2 ⟨c, hc, hb, hp⟩⟩
      · intro px hx hk
        rw [lit_mergeByte, decide_eq_false, Bool.false_and, Bool.xor_false]
        intro h
        exact hne (((ha px _ hx hy _ hcol).1 h).2.symm.trans hk)
  · have h1 : row + ox % 64 / 8 ≤ 0xFFF := by omega
    have h2 : row + (ox % 64 / 8 + 1) % 8 ≤ 0xFFF := by omega
    unfold mergeRow
    simp only [hrow]
    split
    · exact Memory.wf_write hwf h1 _
    · exact Memory.wf_write (Memory.wf_write hwf h1 _) h2 _

end Sys2Proof.Machine
end

