-- ==== Sys2Proof/Laws/Exec.lean ====
section
/-! SUPPORT. What each meaning that reads or writes memory, looks a key up or waits can answer, all of it, guards included;
every other meaning is one `.next` by definition. -/

namespace Sys2Proof.Machine

open Sys2Proof.Claims

theorem execCls_next (s : State) :
    execCls s = .next (s.setMem (clearScreen s.mem)).advance := by
  simp only [execCls, clear_ok, bind_ok, settle_pure]

theorem execRet_next (s : State) :
    execRet s = .next ((s.setSp (s.sp - 2)).setPc
      (pair (Memory.read s.mem (stackSlot (s.sp - 2))) (Memory.read s.mem (stackSlot (s.sp - 2) + 1)))) := by
  have h := stackSlot_le (s.sp - 2)
  simp only [execRet]
  rw [memRead_ok _ (by omega), bind_ok, memRead_ok _ h, bind_ok, settle_pure]

theorem execCall_next (nnn : Addr) (s : State) :
    execCall nnn s = .next (((s.setMem (Memory.write (Memory.write s.mem (stackSlot s.sp) (hiByte (s.pc + 2)))
      (stackSlot s.sp + 1) (loByte (s.pc + 2)))).setSp (s.sp + 2)).setPc (zextAddr nnn)) := by
  have h := stackSlot_le s.sp
  simp only [execCall]
  rw [memWrite_ok _ (by omega), bind_ok, memWrite_ok _ h, bind_ok, settle_pure]

/-- The loop state after n rows of a draw, from no collision. -/
def drawn (x y : Reg) (n : Nat) (s : State) : DrawAcc :=
  (List.range n).foldl (plotRow s.i.toNat (s.reg x).toNat (s.reg y).toNat) (s.mem, false)

theorem drawn_zero (x y : Reg) (s : State) : drawn x y 0 s = (s.mem, false) := rfl

theorem drawn_succ (x y : Reg) (n : Nat) (s : State) :
    drawn x y (n + 1) s = plotRow s.i.toNat (s.reg x).toNat (s.reg y).toNat (drawn x y n s) n := by
  simp [drawn, List.range_succ]

/-- A draw keeps the canonical form. -/
theorem drawn_wf (x y : Reg) (n : Nat) {s : State} (h : Memory.wf s.mem = true) :
    Memory.wf (drawn x y n s).1 = true := by
  induction n with
  | zero => exact h
  | succ n ih =>
    rw [drawn_succ]
    exact (plotRow_spec _ _ _ _ _).2.2 ih

/-- The collision accumulator after n rows: some row's set bit met a pixel that was lit when the row was drawn. -/
theorem drawn_collision (x y : Reg) (n : Nat) (s : State) :
    (drawn x y n s).2 = true ↔ ∃ r px py, r < n ∧ px < 64 ∧ py < 32 ∧ lit (drawn x y r s).1 px py = true ∧
      Covers (Memory.read (drawn x y r s).1 (s.i.toNat + r)) (s.reg x).toNat ((s.reg y).toNat + r) px py := by
  induction n with
  | zero => simp [drawn_zero]
  | succ n ih =>
    rw [drawn_succ, (plotRow_spec _ _ _ _ _).2.1, ih]
    constructor
    · rintro (⟨r, px, py, h, h'⟩ | ⟨px, py, h⟩)
      · exact ⟨r, px, py, by omega, h'⟩
      · exact ⟨n, px, py, by omega, h⟩
    · rintro ⟨r, px, py, h, h'⟩
      by_cases hn : r = n
      · subst hn
        exact .inr ⟨px, py, h'⟩
      · exact .inl ⟨r, px, py, by omega, h'⟩

theorem execDrw_cases (x y : Reg) (n : Fin 16) (s : State) :
    ((∀ r, r < n.val → s.i.toNat + r ≤ 0xFFF) ∧
      execDrw x y n s = .next ((s.setMem (drawn x y n s).1).setFlag (drawn x y n s).2).advance) ∨
    ∃ r, r < n.val ∧ 0xFFF < s.i.toNat + r ∧ (∀ q, q < r → s.i.toNat + q ≤ 0xFFF) ∧
      execDrw x y n s = .fault (.dataOutOfRange (s.i.toNat + r)) := by
  rcases checkSprite_cases s.i.toNat n.val with ⟨h1, h2⟩ | ⟨r, h1, h2, h3, h4⟩
  · exact .inl ⟨h2, by simp only [execDrw, drawWith, h1, bind_ok, drawRows_ok h2]; rfl⟩
  · exact .inr ⟨r, h1, h2, h3, by simp only [execDrw, drawWith, h4, bind_error, settle_error]⟩

theorem execLdB_cases (x : Reg) (s : State) :
    (s.i.toNat + 2 ≤ 0xFFF ∧ execLdB x s = .next (s.setMem (Memory.write (Memory.write (Memory.write s.mem s.i.toNat
      (hundreds (s.reg x))) (s.i.toNat + 1) (tens (s.reg x))) (s.i.toNat + 2) (ones (s.reg x)))).advance) ∨
    (0xFFF < s.i.toNat + 2 ∧ execLdB x s = .fault (.dataOutOfRange 0x1000)) := by
  by_cases h : s.i.toNat + 2 ≤ 0xFFF
  · refine .inl ⟨h, ?_⟩
    simp only [execLdB, checkSpan_ok h, bind_ok]
    rw [memWrite_ok _ (by omega), bind_ok, memWrite_ok _ (by omega), bind_ok, memWrite_ok _ h, bind_ok, settle_pure]
  · refine .inr ⟨by omega, ?_⟩
    simp only [execLdB, checkSpan_error (by omega : 0xFFF < s.i.toNat + 2), bind_error, settle_error]

theorem execLdMemVx_cases (x : Reg) (s : State) :
    (s.i.toNat + x.val ≤ 0xFFF ∧ execLdMemVx x s = .next (s.setMem ((regsUpTo x).foldl
      (fun m r => Memory.write m (s.i.toNat + r.val) (s.reg r)) s.mem)).advance) ∨
    (0xFFF < s.i.toNat + x.val ∧ execLdMemVx x s = .fault (.dataOutOfRange 0x1000)) := by
  by_cases h : s.i.toNat + x.val ≤ 0xFFF
  · refine .inl ⟨h, ?_⟩
    simp only [execLdMemVx, checkSpan_ok h, bind_ok, storeRegs_ok h, settle_pure]
  · refine .inr ⟨by omega, ?_⟩
    simp only [execLdMemVx, checkSpan_error (by omega : 0xFFF < s.i.toNat + x.val), bind_error, settle_error]

theorem execLdVxMem_cases (x : Reg) (s : State) :
    (s.i.toNat + x.val ≤ 0xFFF ∧ execLdVxMem x s = .next (s.setRegs ((regsUpTo x).foldl
      (fun (v : Vector Byte 16) (r : Reg) => v.set r (Memory.read s.mem (s.i.toNat + r.val))) s.v)).advance) ∨
    (0xFFF < s.i.toNat + x.val ∧ execLdVxMem x s = .fault (.dataOutOfRange 0x1000)) := by
  by_cases h : s.i.toNat + x.val ≤ 0xFFF
  · refine .inl ⟨h, ?_⟩
    simp only [execLdVxMem, checkSpan_ok h, bind_ok, loadRegs_ok h, settle_pure]
  · refine .inr ⟨by omega, ?_⟩
    simp only [execLdVxMem, checkSpan_error (by omega : 0xFFF < s.i.toNat + x.val), bind_error, settle_error]

theorem execSkp_cases (x : Reg) (s : State) :
    (∃ k : Key, (s.reg x).toNat = k.val ∧ execSkp x s = .next (s.skipIf (s.key k))) ∨
    (15 < (s.reg x).toNat ∧ execSkp x s = .fault (.keyIndexOutOfRange (s.reg x))) := by
  rcases keyIndex_cases (s.reg x) with ⟨k, h, h'⟩ | ⟨h, h'⟩
  · exact .inl ⟨k, h, by simp only [execSkp, h', bind_ok, settle_pure]⟩
  · exact .inr ⟨h, by simp only [execSkp, h', bind_error, settle_error]⟩

theorem execSknp_cases (x : Reg) (s : State) :
    (∃ k : Key, (s.reg x).toNat = k.val ∧ execSknp x s = .next (s.skipIf (!s.key k))) ∨
    (15 < (s.reg x).toNat ∧ execSknp x s = .fault (.keyIndexOutOfRange (s.reg x))) := by
  rcases keyIndex_cases (s.reg x) with ⟨k, h, h'⟩ | ⟨h, h'⟩
  · exact .inl ⟨k, h, by simp only [execSknp, h', bind_ok, settle_pure]⟩
  · exact .inr ⟨h, by simp only [execSknp, h', bind_error, settle_error]⟩

theorem execLdK_cases (x : Reg) (s : State) :
    (s.waiting = false ∧ execLdK x s = .next s.enterWait) ∨
    (s.waiting = true ∧ (∀ k : Key, s.keys[k] = s.keysPrev[k]) ∧ execLdK x s = .next s) ∨
    (s.waiting = true ∧ ∃ k, firstChangedKey s.keys s.keysPrev = some k ∧ execLdK x s = .next (s.leaveWait x k)) := by
  cases hw : s.waiting with
  | false => exact .inl ⟨rfl, by simp [execLdK, hw]⟩
  | true =>
    cases hk : firstChangedKey s.keys s.keysPrev with
    | none => exact .inr (.inl ⟨rfl, firstChangedKey_eq_none.1 hk, by simp [execLdK, hw, hk]⟩)
    | some k => exact .inr (.inr ⟨rfl, k, rfl, by simp [execLdK, hw, hk]⟩)

theorem ldFWith_cases (c : Config) (x : Reg) (s : State) :
    (c.ldfPolicy = .glyph ∧ ldFWith c x s = .next (s.setI (glyphAddress c (s.reg x))).advance) ∨
    (c.ldfPolicy = .noop ∧ ldFWith c x s = .next s.advance) := by
  cases h : c.ldfPolicy <;> simp [ldFWith, h]

/-! ### The step -/

/-- What a step that answers a next state did: there was no fault, the fetch succeeded, and it is exec's answer. -/
theorem step_next {s t : State} (h : step s = .next t) :
    s.fault = none ∧ ∃ i, fetch s = .ok i ∧ exec i s = .next t := by
  unfold step at h
  split at h
  · cases h
  · rename_i hf
    split at h
    · cases h
    · rename_i i hi
      exact ⟨hf, i, hi, h⟩

/-- The same for a step with its parameters given. -/
theorem stepWith_next {c : Config} {r : Byte} {s t : State} (h : stepWith c r s = .next t) :
    s.fault = none ∧ ∃ i, fetch s = .ok i ∧ execWith c r i s = .next t := by
  unfold stepWith at h
  split at h
  · cases h
  · rename_i hf
    split at h
    · cases h
    · rename_i i hi
      exact ⟨hf, i, hi, h⟩

/-- exec is execWith at the machine's configuration and the step's own free value (log 2, log 4). -/
theorem exec_eq_execWith (i : Instr) (s : State) : exec i s = execWith config s.draw i s := by
  cases i <;> rfl

/-- An instruction that reads neither parameter is the same under both forms. -/
theorem execWith_eq_exec (c : Config) (r : Byte) {i : Instr} (s : State) (hr : ∀ x kk, i ≠ .rnd x kk)
    (hf : ∀ x, i ≠ .ldF x) : execWith c r i s = exec i s := by
  cases i
  case rnd x kk => exact absurd rfl (hr x kk)
  case ldF x => exact absurd rfl (hf x)
  all_goals rfl

theorem step_eq_stepWith (s : State) : step s = stepWith config s.draw s := by
  cases hf : s.fault <;> cases hi : fetch s <;> simp [step, stepWith, hf, hi, exec_eq_execWith]

end Sys2Proof.Machine
end

