-- ==== Sys2Proof/Laws/PerInstr.lean ====
section
/-! SUPPORT. Families of laws with one lemma per constructor of Instr. EncodeClass: the word of an instruction lies in the class
that spec/30_encoding.md R80 gives its row. -/

namespace Sys2Proof.Laws.EncodeClass

/-- The class of the row. -/
def classOf : Instr → Fin 16
  | .cls | .ret | .hook0 _ => 0x0
  | .jp _ => 0x1
  | .call _ => 0x2
  | .seImm _ _ => 0x3
  | .sneImm _ _ => 0x4
  | .seReg _ _ => 0x5
  | .ldImm _ _ => 0x6
  | .addImm _ _ => 0x7
  | .ldReg _ _ | .or _ _ | .and _ _ | .xor _ _ | .addReg _ _ | .sub _ _ | .shr _ | .subn _ _ | .shl _ | .hook8 _ => 0x8
  | .sneReg _ _ => 0x9
  | .ldI _ => 0xA
  | .jpV0 _ => 0xB
  | .rnd _ _ => 0xC
  | .drw _ _ _ => 0xD
  | .skp _ | .sknp _ | .hookE _ => 0xE
  | .ldVxDt _ | .ldK _ | .ldDtVx _ | .ldStVx _ | .addI _ | .ldF _ | .ldB _ | .ldMemVx _ | .ldVxMem _ | .hookF _ => 0xF

def Statement (i : Instr) : Prop := fieldClass (encode i) = classOf i

theorem cls : Statement .cls := formatXKk_class (by decide) _ _
theorem ret : Statement .ret := formatXKk_class (by decide) _ _
theorem hook0 (a : Addr) : Statement (.hook0 a) := formatAddr_class (by decide) _
theorem jp (a : Addr) : Statement (.jp a) := formatAddr_class (by decide) _
theorem call (a : Addr) : Statement (.call a) := formatAddr_class (by decide) _
theorem seImm (x : Reg) (k : Byte) : Statement (.seImm x k) := formatXKk_class (by decide) _ _
theorem sneImm (x : Reg) (k : Byte) : Statement (.sneImm x k) := formatXKk_class (by decide) _ _
theorem seReg (x : Reg) (y : Reg) : Statement (.seReg x y) := formatXYN_class (by decide) _ _ _
theorem ldImm (x : Reg) (k : Byte) : Statement (.ldImm x k) := formatXKk_class (by decide) _ _
theorem addImm (x : Reg) (k : Byte) : Statement (.addImm x k) := formatXKk_class (by decide) _ _
theorem ldReg (x : Reg) (y : Reg) : Statement (.ldReg x y) := formatXYN_class (by decide) _ _ _
theorem or (x : Reg) (y : Reg) : Statement (.or x y) := formatXYN_class (by decide) _ _ _
theorem and (x : Reg) (y : Reg) : Statement (.and x y) := formatXYN_class (by decide) _ _ _
theorem xor (x : Reg) (y : Reg) : Statement (.xor x y) := formatXYN_class (by decide) _ _ _
theorem addReg (x : Reg) (y : Reg) : Statement (.addReg x y) := formatXYN_class (by decide) _ _ _
theorem sub (x : Reg) (y : Reg) : Statement (.sub x y) := formatXYN_class (by decide) _ _ _
theorem shr (x : Reg) : Statement (.shr x) := formatXYN_class (by decide) _ _ _
theorem subn (x : Reg) (y : Reg) : Statement (.subn x y) := formatXYN_class (by decide) _ _ _
theorem shl (x : Reg) : Statement (.shl x) := formatXYN_class (by decide) _ _ _
theorem hook8 (a : Addr) : Statement (.hook8 a) := formatAddr_class (by decide) _
theorem sneReg (x : Reg) (y : Reg) : Statement (.sneReg x y) := formatXYN_class (by decide) _ _ _
theorem ldI (a : Addr) : Statement (.ldI a) := formatAddr_class (by decide) _
theorem jpV0 (a : Addr) : Statement (.jpV0 a) := formatAddr_class (by decide) _
theorem rnd (x : Reg) (k : Byte) : Statement (.rnd x k) := formatXKk_class (by decide) _ _
theorem drw (x : Reg) (y : Reg) (n : Fin 16) : Statement (.drw x y n) := formatXYN_class (by decide) _ _ _
theorem skp (x : Reg) : Statement (.skp x) := formatXKk_class (by decide) _ _
theorem sknp (x : Reg) : Statement (.sknp x) := formatXKk_class (by decide) _ _
theorem hookE (a : Addr) : Statement (.hookE a) := formatAddr_class (by decide) _
theorem ldVxDt (x : Reg) : Statement (.ldVxDt x) := formatXKk_class (by decide) _ _
theorem ldK (x : Reg) : Statement (.ldK x) := formatXKk_class (by decide) _ _
theorem ldDtVx (x : Reg) : Statement (.ldDtVx x) := formatXKk_class (by decide) _ _
theorem ldStVx (x : Reg) : Statement (.ldStVx x) := formatXKk_class (by decide) _ _
theorem addI (x : Reg) : Statement (.addI x) := formatXKk_class (by decide) _ _
theorem ldF (x : Reg) : Statement (.ldF x) := formatXKk_class (by decide) _ _
theorem ldB (x : Reg) : Statement (.ldB x) := formatXKk_class (by decide) _ _
theorem ldMemVx (x : Reg) : Statement (.ldMemVx x) := formatXKk_class (by decide) _ _
theorem ldVxMem (x : Reg) : Statement (.ldVxMem x) := formatXKk_class (by decide) _ _
theorem hookF (a : Addr) : Statement (.hookF a) := formatAddr_class (by decide) _

end Sys2Proof.Laws.EncodeClass
end

