-- ==== Sys2Proof/Tests/Slice0.lean ====
section
/-! SUPPORT. The model's own tests. Expected values come from spec/95_test_vectors.md, whose row is named at each test; words are
the encodings of spec/30_encoding.md R74 and R80 written out. The last part shows, for each statement with hypotheses, that
they can be met together. -/

namespace Sys2Proof.Tests

open Sys2Proof.Machine Sys2Proof.Claims

/-! ### Small states -/

/-- `s` with registers set. -/
def withRegs (rs : List (Reg × Byte)) (s : State) : State := rs.foldl (fun s p => s.setReg p.1 p.2) s

/-- `s` with bytes set from an address up. -/
def withBytes (a : Nat) (bs : List Byte) (s : State) : State := s.setMem (Memory.writeBytes s.mem a bs)

/-- `s` with the given keys down. -/
def withKeys (ks : List Key) (s : State) : State :=
  s.setKeys (ks.foldl (fun (v : Vector Bool 16) (k : Key) => v.set k true) s.keys)

/-- One step on a word placed at the PC. -/
def run (w : Nat) (s : State) : Out := step (s.withFetchWord 16 w)

/-- A view of the next state, if there is one. -/
def look {α : Type} (f : State → α) : Out → Option α
  | .next t => some (f t)
  | _ => none

/-- The fault, if there is one. -/
def why : Out → Option Fault
  | .fault f => some f
  | _ => none

/-- What the vectors of classes 0x0 to 0x8 list: V[x], VF, PC. -/
def xFlagPc (x : Reg) (t : State) : Byte × Byte × Word := (t.reg x, t.reg 15, t.pc)

/-- Some bytes of memory and VF: what the DRW vectors list. -/
def bytesFlag (as : List Nat) (t : State) : List Byte × Byte := (as.map (Memory.read t.mem), t.reg 15)

/-! ### WellFormed: an ill-formed term for each check -/

theorem test_wf_hook0_refuses_cls_word : (Instr.hook0 0x5E0).wellFormed = false := by decide
theorem test_wf_hook0_refuses_ret_word : (Instr.hook0 0x0EE).wellFormed = false := by decide
theorem test_wf_hook8_refuses_add_word : (Instr.hook8 0x014).wellFormed = false := by decide
theorem test_wf_hookE_refuses_skip_words :
    (Instr.hookE 0x39E).wellFormed = false ∧ (Instr.hookE 0x3A1).wellFormed = false := by decide
theorem test_wf_hookF_refuses_timer_word : (Instr.hookF 0x307).wellFormed = false := by decide
theorem test_wf_accepts_hooks : (Instr.hook0 0x0E1).wellFormed = true ∧ (Instr.hook8 0x018).wellFormed = true ∧
    (Instr.hookE 0x3A2).wellFormed = true ∧ (Instr.hookF 0x0FF).wellFormed = true := by decide

/-! ### Decode: a word for every constructor (R74, R80, vectors 8) -/

theorem test_decode_class0 : decodeTableWord 16 0x00E0 = some .cls ∧ decodeTableWord 16 0x05E0 = some .cls ∧
    decodeTableWord 16 0x00EE = some .ret ∧ decodeTableWord 16 0x0AEE = some .ret ∧
    decodeTableWord 16 0x00E1 = some (.hook0 0x0E1) := by decide

theorem test_decode_jumps : decodeTableWord 16 0x1204 = some (.jp 0x204) ∧ decodeTableWord 16 0x2ABC = some (.call 0xABC) ∧
    decodeTableWord 16 0xBFFF = some (.jpV0 0xFFF) ∧ decodeTableWord 16 0xA210 = some (.ldI 0x210) := by decide

theorem test_decode_skips : decodeTableWord 16 0x3F12 = some (.seImm 15 0x12) ∧
    decodeTableWord 16 0x4312 = some (.sneImm 3 0x12) ∧ decodeTableWord 16 0x5121 = some (.seReg 1 2) ∧
    decodeTableWord 16 0x9015 = some (.sneReg 0 1) := by decide

theorem test_decode_immediates : decodeTableWord 16 0x6A05 = some (.ldImm 10 0x05) ∧
    decodeTableWord 16 0x75FE = some (.addImm 5 0xFE) ∧ decodeTableWord 16 0xC20F = some (.rnd 2 0x0F) := by decide

theorem test_decode_class8_plain : decodeTableWord 16 0x8120 = some (.ldReg 1 2) ∧
    decodeTableWord 16 0x8121 = some (.or 1 2) ∧ decodeTableWord 16 0x8122 = some (.and 1 2) ∧
    decodeTableWord 16 0x8123 = some (.xor 1 2) := by decide

theorem test_decode_class8_flags : decodeTableWord 16 0x8124 = some (.addReg 1 2) ∧
    decodeTableWord 16 0x8125 = some (.sub 1 2) ∧ decodeTableWord 16 0x8126 = some (.shr 1) ∧
    decodeTableWord 16 0x8127 = some (.subn 1 2) ∧ decodeTableWord 16 0x8F0E = some (.shl 15) ∧
    decodeTableWord 16 0x812D = some (.hook8 0x12D) := by decide

theorem test_decode_draw_and_keys : decodeTableWord 16 0xDAB7 = some (.drw 10 11 7) ∧
    decodeTableWord 16 0xE39E = some (.skp 3) ∧ decodeTableWord 16 0xE3A1 = some (.sknp 3) ∧
    decodeTableWord 16 0xE3A2 = some (.hookE 0x3A2) ∧ decodeTableWord 16 0xF30A = some (.ldK 3) := by decide

theorem test_decode_transfers : decodeTableWord 16 0xF307 = some (.ldVxDt 3) ∧
    decodeTableWord 16 0xF315 = some (.ldDtVx 3) ∧ decodeTableWord 16 0xF318 = some (.ldStVx 3) ∧
    decodeTableWord 16 0xF31E = some (.addI 3) ∧ decodeTableWord 16 0xF329 = some (.ldF 3) ∧
    decodeTableWord 16 0xF333 = some (.ldB 3) ∧ decodeTableWord 16 0xF355 = some (.ldMemVx 3) ∧
    decodeTableWord 16 0xF365 = some (.ldVxMem 3) ∧ decodeTableWord 16 0xF3FF = some (.hookF 0x3FF) := by decide

theorem test_decode_short_input_is_rejected :
    decodeBytes [0x12] = .error (.truncated 1) ∧ decodeTableWord 24 0x12 = none := by decide

/-! ### Class-level operations (vectors 2) -/

/-- 2.1.1. -/
theorem test_cls_framebuffer_only : look (fun t => [0xF00, 0xFFF, 0xEFF].map (Memory.read t.mem))
    (exec .cls (withBytes 0xEFF [0x12, 0xFF] (withBytes 0xFFF [0x81] State.reset))) = some [0, 0, 0x12] := by
  show look _ (execCls _) = _
  rw [execCls_next]
  simp [look, read_clear]
  decide

/-- 2.1.4. -/
theorem test_ret_pops : look (fun t => (t.sp, t.pc)) (run 0x00EE (withBytes 0xEA0 [0x02, 0x06] (State.reset.setSp 2))) =
    some (0x00, 0x206) := by decide

/-- 2.1.6: underflow pops framebuffer bytes. -/
theorem test_ret_underflow : look (fun t => (t.sp, t.pc)) (run 0x00EE (withBytes 0xF9E [0x03, 0x00] State.reset)) =
    some (0xFE, 0x300) := by decide

/-- 7.7, 3.4.8, 5.1.10, 6.31. -/
theorem test_hooks_advance : [0x0123, 0x8018, 0xE09F, 0xF0FF].map (fun w => look State.pc (run w State.reset)) =
    [some 0x202, some 0x202, some 0x202, some 0x202] := by decide

/-- 2.2.1, 2.2.5. -/
theorem test_jp : look State.pc (run 0x1204 State.reset) = some 0x204 ∧
    look State.pc (run 0x1301 State.reset) = some 0x301 := by decide

/-- 2.2.7: no reduction to 12 bits. -/
theorem test_jpV0_unreduced : look State.pc (run 0xBFFF (withRegs [(0, 0xFF)] State.reset)) = some 0x10FE := by decide

/-- 2.2.10: the 49th level lands in the framebuffer. -/
theorem test_call_into_framebuffer :
    look (fun t => (t.sp, t.pc, Memory.read t.mem 0xF00, Memory.read t.mem 0xF01))
      (run 0x2400 ((State.reset.setSp 0x60).setPc 0x250)) = some (0x62, 0x400, 0x02, 0x52) := by decide

/-- 2.2.11: SP wraps. -/
theorem test_call_wraps_sp :
    look (fun t => (t.sp, t.pc, Memory.read t.mem 0xF9E, Memory.read t.mem 0xF9F))
      (run 0x2300 (State.reset.setSp 0xFE)) = some (0x00, 0x300, 0x02, 0x02) := by decide

/-- 2.4.1, 2.4.2. -/
theorem test_seImm : look State.pc (run 0x3312 (withRegs [(3, 0x12)] State.reset)) = some 0x204 ∧
    look State.pc (run 0x3312 (withRegs [(3, 0x13)] State.reset)) = some 0x202 := by decide

/-- 2.4.4, 2.4.5. -/
theorem test_sneImm : look State.pc (run 0x4312 (withRegs [(3, 0x12)] State.reset)) = some 0x202 ∧
    look State.pc (run 0x4312 State.reset) = some 0x204 := by decide

/-- 2.4.7, 2.4.8. -/
theorem test_seReg : look State.pc (run 0x501F (withRegs [(0, 0x03), (1, 0x03)] State.reset)) = some 0x204 ∧
    look State.pc (run 0x5010 (withRegs [(0, 0x01), (1, 0x02)] State.reset)) = some 0x202 := by decide

/-- 2.4.10, 2.4.12. -/
theorem test_sneReg : look State.pc (run 0x9010 (withRegs [(0, 0x01), (1, 0x02)] State.reset)) = some 0x204 ∧
    look State.pc (run 0x9015 State.reset) = some 0x202 := by decide

/-- 2.5.1, 2.5.2. -/
theorem test_ldImm : look (xFlagPc 0) (run 0x6005 State.reset) = some (0x05, 0x00, 0x202) ∧
    look (xFlagPc 15) (run 0x6FAA (withRegs [(15, 1)] State.reset)) = some (0xAA, 0xAA, 0x202) := by decide

/-- 2.5.3, 2.5.5. -/
theorem test_addImm : look (xFlagPc 5) (run 0x7501 (withRegs [(5, 0xFF), (15, 0x55)] State.reset)) =
      some (0x00, 0x55, 0x202) ∧
    look (xFlagPc 15) (run 0x7F02 (withRegs [(15, 0xFF)] State.reset)) = some (0x01, 0x01, 0x202) := by decide

/-- 2.5.6. -/
theorem test_ldI : look (fun t => (t.i, t.pc)) (run 0xAFFF (State.reset.setI 0x123)) = some (0x0FFF, 0x202) := by decide

/-- 2.5.8, 2.5.11: the draws 0xA5. -/
theorem test_rnd_masks_the_draw :
    look (xFlagPc 2) (stepWith config 0xA5 ((withRegs [(2, 0x77)] State.reset).withFetchWord 16 0xC20F)) =
      some (0x05, 0x00, 0x202) ∧
    look (xFlagPc 15) (stepWith config 0xA5 (State.reset.withFetchWord 16 0xCFF0)) = some (0xA0, 0xA0, 0x202) := by decide

/-- 2.5.9, with the model's own draw: R135 with kk = 0, whatever the draw. -/
theorem test_rnd_zero_mask : look (fun t => (t.reg 3, t.draws)) (exec (.rnd 3 0x00) State.reset) = some (0x00, 1) := by
  simp [exec, execRnd, rndWith, look]
  rfl

/-! ### Class 8 (vectors 3) -/

/-- 3.4.1, 3.4.2. -/
theorem test_ldReg : look (xFlagPc 0) (run 0x8010 (withRegs [(1, 0x33)] State.reset)) = some (0x33, 0x00, 0x202) ∧
    look (xFlagPc 15) (run 0x8F00 (withRegs [(0, 0x42)] State.reset)) = some (0x42, 0x42, 0x202) := by decide

/-- 3.4.3: VF kept. -/
theorem test_or : look (xFlagPc 0) (run 0x8011 (withRegs [(0, 0x0F), (1, 0xF0), (15, 7)] State.reset)) =
    some (0xFF, 0x07, 0x202) := by decide

/-- 3.4.4. -/
theorem test_and : look (xFlagPc 0) (run 0x8012 (withRegs [(0, 0x3C), (1, 0x0F), (15, 7)] State.reset)) =
    some (0x0C, 0x07, 0x202) := by decide

/-- 3.4.5: no fall-through into ADD. -/
theorem test_xor : look (xFlagPc 0) (run 0x8013 (withRegs [(0, 0xFF), (1, 0x0F), (15, 7)] State.reset)) =
    some (0xF0, 0x07, 0x202) := by decide

/-- 3.1 rows 2, 3, 4, 8. -/
theorem test_addReg_carry :
    [(0x00, 0x00), (0xFF, 0x00), (0xFF, 0x01), (0x01, 0xFE)].map
      (fun p => look (xFlagPc 0) (run 0x8014 (withRegs [(0, p.1), (1, p.2), (15, 7)] State.reset))) =
    [some (0x00, 0, 0x202), some (0xFF, 0, 0x202), some (0x00, 1, 0x202), some (0xFF, 0, 0x202)] := by decide

/-- 3.1.10, 3.1.11: x = 15 and y = 15. -/
theorem test_addReg_flag_register :
    look (xFlagPc 15) (run 0x8F14 (withRegs [(15, 0xFF), (1, 0x03)] State.reset)) = some (0x02, 0x02, 0x202) ∧
    look (xFlagPc 0) (run 0x80F4 (withRegs [(0, 0x10), (15, 0xF0)] State.reset)) = some (0x00, 1, 0x202) := by decide

/-- 3.2 rows 1, 2, 3 and 3.2.9. -/
theorem test_sub : [(0x20, 0x10), (0x10, 0x20), (0x10, 0x10)].map
      (fun p => look (xFlagPc 0) (run 0x8015 (withRegs [(0, p.1), (1, p.2), (15, 7)] State.reset))) =
    [some (0x10, 1, 0x202), some (0xF0, 0, 0x202), some (0x00, 0, 0x202)] ∧
    look (xFlagPc 15) (run 0x8F15 (withRegs [(15, 0x05), (1, 0x03)] State.reset)) = some (0x02, 0x02, 0x202) := by decide

/-- 3.2 rows 1, 2, 4 and 3.2.10. -/
theorem test_subn : [(0x20, 0x10), (0x10, 0x20), (0x00, 0xFF)].map
      (fun p => look (xFlagPc 0) (run 0x8017 (withRegs [(0, p.1), (1, p.2), (15, 7)] State.reset))) =
    [some (0xF0, 0, 0x202), some (0x10, 1, 0x202), some (0xFF, 1, 0x202)] ∧
    look (xFlagPc 15) (run 0x8F17 (withRegs [(15, 0x03), (1, 0x05)] State.reset)) = some (0x02, 0x02, 0x202) := by decide

/-- 3.3 row 6, 3.3.8, 3.3.10. -/
theorem test_shr : look (xFlagPc 0) (run 0x8016 (withRegs [(0, 0x81)] State.reset)) = some (0x40, 1, 0x202) ∧
    look (xFlagPc 0) (run 0x8016 (withRegs [(0, 0x04), (1, 0xFF)] State.reset)) = some (0x02, 0, 0x202) ∧
    look (xFlagPc 15) (run 0x8F06 (withRegs [(15, 1)] State.reset)) = some (0x00, 0x00, 0x202) := by decide

/-- 3.3 row 6, 3.3.9, 3.3.11. -/
theorem test_shl : look (xFlagPc 0) (run 0x801E (withRegs [(0, 0x81)] State.reset)) = some (0x02, 1, 0x202) ∧
    look (xFlagPc 0) (run 0x801E (withRegs [(0, 0x04), (1, 0xFF)] State.reset)) = some (0x08, 0, 0x202) ∧
    look (xFlagPc 15) (run 0x8FFE (withRegs [(15, 0x81)] State.reset)) = some (0x02, 0x02, 0x202) := by decide

/-! ### The draw (vectors 4) -/

/-- I = 0x300, the origin in V0 and V1, the sprite bytes at 0x300. -/
def drawState (ox oy : Byte) (sprite : List Byte) : State :=
  withRegs [(0, ox), (1, oy)] (withBytes 0x300 sprite (State.reset.setI 0x300))

/-- 4.5 and 4.8: both wraps; a collision in row 0 that row 1 does not reset. -/
theorem test_drw_wraps_and_collides :
    look (bytesFlag [0xFFF, 0xFF8]) (run 0xD011 (drawState 63 31 [0xC0])) = some ([0x01, 0x80], 0) ∧
    look (bytesFlag [0xF00, 0xF08]) (run 0xD012 (withBytes 0xF00 [0x80] (drawState 0 0 [0x80, 0x80]))) =
      some ([0x00, 0x80], 1) := by decide

/-- 4.14: row 1 reads the byte that row 0 wrote. -/
theorem test_drw_reads_what_it_wrote :
    look (bytesFlag [0xF00, 0xF08]) (run 0xD012 (withBytes 0xEFF [0xC0] (State.reset.setI 0xEFF))) =
      some ([0xC0, 0xC0], 0) := by decide

/-! ### Keys (vectors 5) -/

/-- 5.1.1, 5.1.2, 5.1.6. -/
theorem test_skp : look State.pc (run 0xE09E (withKeys [5] (withRegs [(0, 5)] State.reset))) = some 0x204 ∧
    look State.pc (run 0xE09E (withRegs [(0, 5)] State.reset)) = some 0x202 ∧
    why (run 0xE09E (withRegs [(0, 0x10)] State.reset)) = some (.keyIndexOutOfRange 0x10) := by decide

/-- 5.1.3, 5.1.4, 5.1.7. -/
theorem test_sknp : look State.pc (run 0xE0A1 (withRegs [(0, 5)] State.reset)) = some 0x204 ∧
    look State.pc (run 0xE0A1 (withKeys [5] (withRegs [(0, 5)] State.reset))) = some 0x202 ∧
    why (run 0xE0A1 (withRegs [(0, 0xFF)] State.reset)) = some (.keyIndexOutOfRange 0xFF) := by decide

/-- 5.2.3 step 1: the entry snapshots K and reports nothing. -/
theorem test_ldK_entry : look (fun t => (t.pc, t.waiting, t.keysPrev[3], t.reg 1))
    (run 0xF10A (withKeys [3] (State.reset.setPc 0x20A))) = some (0x20A, true, true, 0) := by decide

/-- 5.2.4 step 2: the lowest changed key ends the wait. -/
theorem test_ldK_lowest : look (fun t => (t.pc, t.waiting, t.reg 1))
    (run 0xF10A (withKeys [9, 2] ((State.reset.setPc 0x20A).setWaiting true))) = some (0x20C, false, 2) := by decide

/-! ### Transfers (vectors 6) -/

/-- 6.1. -/
theorem test_ldVxDt : look (fun t => (t.reg 3, t.dt)) (run 0xF307 (State.reset.setDt 0x3C)) = some (0x3C, 0x3C) := by decide

/-- 6.2. -/
theorem test_ldDtVx : look (fun t => (t.dt, t.st)) (run 0xF315 (withRegs [(3, 0x3C)] State.reset)) = some (0x3C, 0) := by
  decide

/-- 6.3. -/
theorem test_ldStVx : look (fun t => (t.dt, t.st)) (run 0xF318 (withRegs [(3, 0x02)] State.reset)) = some (0, 0x02) := by
  decide

/-- 6.6, 6.7, 6.8. -/
theorem test_addI : look (fun t => (t.i, t.reg 15)) (run 0xF01E (withRegs [(0, 1)] (State.reset.setI 0xFFF))) =
      some (0x000, 1) ∧
    look (fun t => (t.i, t.reg 15)) (run 0xF01E (withRegs [(0, 0xFF), (15, 7)] (State.reset.setI 0xF00))) =
      some (0xFFF, 0) ∧
    look (fun t => (t.i, t.reg 15)) (run 0xFF1E (withRegs [(15, 0x10)] (State.reset.setI 0xFF0))) = some (0x000, 1) := by
  decide

/-- 6.12. -/
theorem test_ldF_low_nibble : look State.i (run 0xF229 (withRegs [(2, 0x1A)] State.reset)) = some 0x032 := by decide

/-- 6.13, 6.14: the other configurations. -/
theorem test_ldF_configurations :
    look (fun t => (t.i, t.pc)) (stepWith ⟨.glyph, 0x050, 60⟩ 0 ((withRegs [(2, 0x0F)] State.reset).withFetchWord 16 0xF229)) =
      some (0x09B, 0x202) ∧
    look (fun t => (t.i, t.pc))
      (stepWith ⟨.noop, 0x000, 60⟩ 0 ((withRegs [(2, 0x0A)] (State.reset.setI 0x300)).withFetchWord 16 0xF229)) =
      some (0x300, 0x202) := by decide

/-- 6.20. -/
theorem test_ldB_digits : look (fun t => [0xFFD, 0xFFE, 0xFFF].map (Memory.read t.mem))
    (run 0xF033 (withRegs [(0, 0x7B)] (State.reset.setI 0xFFD))) = some [1, 2, 3] := by decide

/-- 6.21. -/
theorem test_ldB_fault : why (run 0xF033 (withRegs [(0, 0x7B)] (State.reset.setI 0xFFE))) = some (.dataOutOfRange 0x1000) := by
  decide

/-- 6.23: x = 0 stores one byte; I is kept. -/
theorem test_ldMemVx_one : look (fun t => (Memory.read t.mem 0x300, Memory.read t.mem 0x301, t.i))
    (run 0xF055 (withRegs [(0, 0xAA), (1, 0xBB)] (State.reset.setI 0x300))) = some (0xAA, 0x00, 0x300) := by decide

/-- 6.25. -/
theorem test_ldMemVx_fault : why (run 0xFF55 (State.reset.setI 0xFF1)) = some (.dataOutOfRange 0x1000) := by decide

/-- 6.27. -/
theorem test_ldVxMem : look (fun t => (t.reg 0, t.reg 1, t.reg 2, t.reg 3, t.i))
    (run 0xF265 (withBytes 0x300 [2, 5, 4, 9] (State.reset.setI 0x300))) = some (2, 5, 4, 0, 0x300) := by decide

/-- 6.28: V[15] is loaded too. -/
theorem test_ldVxMem_flag_register : look (fun t => (t.reg 14, t.reg 15))
    (run 0xFF65 (withBytes 0x30F [0x99] (State.reset.setI 0x300))) = some (0x00, 0x99) := by decide

/-! ### Steps, faults and the host (vectors 6.32 to 6.35, 7) -/

/-- 7.1, 7.2. -/
theorem test_fetch_out_of_range : why (step (State.reset.setPc 0xFFF)) = some (.fetchOutOfRange 0xFFF) ∧
    why (step (State.reset.setPc 0x1000)) = some (.fetchOutOfRange 0x1000) := by decide

/-- 7.3, 7.4: the last fetch address; an odd one. -/
theorem test_fetch_edges : look (xFlagPc 10) (run 0x6A01 (State.reset.setPc 0xFFE)) = some (0x01, 0x00, 0x1000) ∧
    look (xFlagPc 0) (run 0x6007 (State.reset.setPc 0x201)) = some (0x07, 0x00, 0x203) := by decide

/-- A machine that has faulted, with its timers. -/
def stuck (dt st : Byte) : State := ((State.reset.setDt dt).setSt st).raise (.fetchOutOfRange 0xFFF)

/-- 7.10 and 6.35: a faulted machine does not step, and still ticks. -/
theorem test_after_a_fault :
    why (step (stuck 2 2)) = some (.fetchOutOfRange 0xFFF) ∧ (HostEvent.step 0).apply config (stuck 2 2) = stuck 2 2 ∧
      HostEvent.tick.apply config (stuck 2 2) = stuck 1 1 := by decide

/-- 6.33, 6.34: the floor. -/
theorem test_tick_floor : (State.tick (State.reset.setSt 1)).st = 0 ∧ (State.tick State.reset).dt = 0 := by decide

/-- R282, R283 and G1: the image's place; digit A of the font at 0x032 (vector 6.10) and the font's last byte. -/
theorem test_load : look (fun t => [0x1FF, 0x200, 0x201, 0x202].map (Memory.read t.mem)) (loadImage [0x60, 0x05] State.reset) =
      some [0, 0x60, 0x05, 0] ∧
    look (fun t => [0x032, 0x033, 0x036, 0x04F, 0x050].map (Memory.read t.mem)) (loadFont config conventionalFont State.reset) =
      some [0xF0, 0x90, 0x90, 0x80, 0] := by decide

/-- R34, spec/10_state.md: pixel (3, 1) is bit 4 of 0xF08. -/
theorem test_pixel_view : (withBytes 0xF08 [0x10] State.reset).pixel 3 1 = true ∧
    (withBytes 0xF08 [0x10] State.reset).pixel 4 1 = false := by decide

/-! ### Witnesses: the hypotheses of each statement, met together -/

/-- What a step of the model answers on a placed word, when it answers. -/
def completes (w : Nat) (s : State) : Bool := (look (fun _ => ()) (run w s)).isSome

/-- StepKeepsTheInvariant and EveryTransactionKeepsTheInvariant: I and SP at their largest, a byte at the last address. -/
theorem test_witness_step_keeps_inv : (withBytes 0xFFF [1] ((State.reset.setI 0xFFF).setSp 0xFE)).Inv ∧
    ∃ t, step (withBytes 0xFFF [1] ((State.reset.setI 0xFFF).setSp 0xFE)) = .next t :=
  ⟨by unfold State.Inv; decide, _, rfl⟩

/-- Their other clause: a machine that waits at its LD Vx, K, whose step answers, under the other policy too. -/
theorem test_witness_step_keeps_wait : (⟨.noop, 0xFB0, 60⟩ : Config).wf = true ∧
    let s := withBytes 0x200 [0xF1, 0x0A] (State.reset.setWaiting true)
    s.WaitsAtKeyWait ∧ s.waiting = true ∧ ∃ t, stepWith ⟨.noop, 0xFB0, 60⟩ 0 s = .next t :=
  ⟨by decide, fun _ => ⟨1, rfl⟩, rfl, _, rfl⟩

/-- ReachableStatesMeetTheInvariant: a loaded program, one step into its key wait. -/
theorem test_witness_reachable : ∃ s, Reachable config s ∧ s.waiting = true ∧ s.fault = none :=
  ⟨_, .event (.step 0) (.start (.boot (.load [0xF1, 0x0A]) .construct rfl)), by decide⟩

/-- StepRunsTheDecodedInstruction and StepRunsTheWordPlacedAtThePc at the last address that can be fetched from. -/
theorem test_witness_step_runs : (State.reset.setPc 0xFFE).fault = none ∧ (State.reset.setPc 0xFFE).pc.toNat ≤ 0xFFE ∧
    (Instr.drw 15 15 15).wellFormed = true ∧ (Instr.hookF 0xFFF).wellFormed = true := by decide

/-- FaultedOrLostMachineDoesNotStep: the first address that cannot be fetched from, and a faulted machine. -/
theorem test_witness_lost : (State.reset.setPc 0xFFF).fault = none ∧ 0xFFE < (State.reset.setPc 0xFFF).pc.toNat ∧
    (stuck 0 0).fault = some (.fetchOutOfRange 0xFFF) := by decide

/-- FaultsArePreciseAndSticky. -/
theorem test_witness_faults : stepWith config 0 (State.reset.setPc 0xFFF) = .fault (.fetchOutOfRange 0xFFF) := rfl

/-- OnlyCheckedAccessesFault: each of its cases occurs. -/
theorem test_witness_fault_cases : (∃ t, exec .cls State.reset = .next t) ∧
    exec (.ldVxMem 15) (State.reset.setI 0xFF1) = .fault (.dataOutOfRange 0x1000) ∧
    exec (.sknp 0) (withRegs [(0, 16)] State.reset) = .fault (.keyIndexOutOfRange 16) :=
  ⟨⟨_, execCls_next _⟩, rfl, rfl⟩

/-- DataFaultsRecordTheFirstAddressAboveMemory: a draw that starts inside memory. -/
theorem test_witness_data_fault : (State.reset.setI 0xFFE).Inv ∧
    exec (.drw 0 0 3) (State.reset.setI 0xFFE) = .fault (.dataOutOfRange 0x1000) :=
  ⟨by unfold State.Inv; decide, rfl⟩

/-- DecodeInvertsEncode: each family has well-formed instructions, operands at both ends. -/
theorem test_witness_well_formed : [Instr.hook0 0xFFF, .hook8 0xFFF, .hookE 0x000, .hookF 0x000, .jp 0xFFF, .addImm 15 0xFF,
    .drw 15 15 15, .ldVxMem 0].all Instr.wellFormed = true := by decide

/-- CallThenRetReturns: SP at its largest, the state right after the CALL. -/
theorem test_witness_call_then_ret : ∃ t, exec (.call 0xFFF) (State.reset.setSp 0xFF) = .next t ∧ t.sp = 0x01 ∧
    Memory.read t.mem 0xF9F = 0x02 := ⟨_, rfl, by decide⟩

/-- OnlyRndReadsTheDraw: zeroed memory holds no RND. -/
theorem test_witness_no_rnd : ∀ x kk, fetch State.reset ≠ .ok (.rnd x kk) := by
  intro x kk h
  have : fetch State.reset = .ok (.hook0 0) := rfl
  rw [this] at h
  cases h

/-- OnlyLdFReadsTheConfiguration: nor an LD F; where there is one the two policies do differ (vectors 6.10, 6.14). -/
theorem test_witness_no_ldF : (∀ x, fetch State.reset ≠ .ok (.ldF x)) ∧
    look State.i (execWith ⟨.glyph, 0x000, 60⟩ 0 (.ldF 2) (withRegs [(2, 0x0A)] (State.reset.setI 0x300))) = some 0x032 ∧
    look State.i (execWith ⟨.noop, 0x000, 60⟩ 0 (.ldF 2) (withRegs [(2, 0x0A)] (State.reset.setI 0x300))) = some 0x300 := by
  refine ⟨fun x h => ?_, by decide, by decide⟩
  have : fetch State.reset = .ok (.hook0 0) := rfl
  rw [this] at h
  cases h

/-- SelfJumpIdlesForEver: `1206` at 0x206. -/
theorem test_witness_self_jump : let s := withBytes 0x206 [0x12, 0x06] (State.reset.setPc 0x206)
    s.fault = none ∧ s.pc = BitVec.ofNat 16 (0x206#12).toNat ∧ fetch s = .ok (.jp 0x206) :=
  ⟨rfl, rfl, rfl⟩

/-- DrwDrawsRowAfterRow and DrwOutOfMemoryFaults: 15 rows that end at 0xFFF, and one byte further. -/
theorem test_witness_drw_range : (∀ r, r < 15 → (State.reset.setI 0xFF1).i.toNat + r ≤ 0xFFF) ∧
    0xFFF < (State.reset.setI 0xFF2).i.toNat + 14 ∧ ∀ q, q < 14 → (State.reset.setI 0xFF2).i.toNat + q ≤ 0xFFF := by decide

/-- DrwDrawsRowAfterRow: both clauses of its flag occur (vectors 4.6 and 4.7). -/
theorem test_witness_drw_flags :
    look (bytesFlag [0xF00]) (run 0xD011 (withBytes 0xF00 [0x0F] (drawState 0 0 [0x18]))) = some ([0x17], 1) ∧
    look (bytesFlag [0xF00]) (run 0xD011 (withBytes 0xF00 [0xFF] (drawState 0 0 [0x00]))) = some ([0xFF], 0) := by decide

/-- DrwEqualsItsByteLevelForm: canonical memory with a sprite in it. -/
theorem test_witness_drw_wf : Memory.wf (drawState 63 31 [0xC0, 0x81]).mem = true := by decide

/-- DrwTwiceRestoresTheScreen: any sprite that lies below the framebuffer meets its hypotheses (L1-9's state). -/
theorem test_witness_drw_twice : (0 : Reg) ≠ 15 ∧ (1 : Reg) ≠ 15 ∧ Memory.wf (drawState 0 0 [0xF0]).mem = true ∧
    (∀ q r px py, q < 1 → r < 1 →
      Covers (Memory.read (drawState 0 0 [0xF0]).mem ((drawState 0 0 [0xF0]).i.toNat + r))
        ((drawState 0 0 [0xF0]).reg 0).toNat (((drawState 0 0 [0xF0]).reg 1).toNat + r) px py →
      pixelAddr px py ≠ (drawState 0 0 [0xF0]).i.toNat + q) ∧
    ∃ t, exec (.drw 0 1 1) (drawState 0 0 [0xF0]) = .next t := by
  refine ⟨by decide, by decide, by decide, fun q r px py hq _ _ => ?_, _, rfl⟩
  have : (drawState 0 0 [0xF0]).i.toNat = 0x300 := rfl
  simp only [pixelAddr]
  omega

/-- A second draw, from a first one. -/
def drawTwice (s : State) : Option (List Byte × Byte) :=
  match run 0xD011 s with
  | .next t => look (bytesFlag [0xF00]) (run 0xD011 t)
  | _ => none

/-- DrwTwiceRestoresTheScreen: both clauses of its flag occur. On a blank screen the second draw collides (L1-9, R173); on one
where every covered pixel was lit the first draw clears them and the second, by R173, meets none (log 12). -/
theorem test_witness_drw_twice_flags : drawTwice (drawState 0 0 [0xF0]) = some ([0x00], 1) ∧
    drawTwice (withBytes 0xF00 [0xF0] (drawState 0 0 [0xF0])) = some ([0xF0], 0) := by decide

/-- KeySkipsFollowTheKey: the last key, the first index that is none. -/
theorem test_witness_key_skips : ((withRegs [(0, 15)] State.reset).reg 0).toNat = (15 : Key).val ∧
    15 < ((withRegs [(0, 16)] State.reset).reg 0).toNat := by decide

/-- KeyWaitBeginsWithASnapshot, KeyWaitReportsTheLowestChangedKey (key 15, the last), KeyWaitLastsWithoutAChange. -/
theorem test_witness_key_wait : State.reset.waiting = false ∧
    (let s := withKeys [15] (State.reset.setWaiting true)
     s.waiting = true ∧ s.key 15 ≠ s.keysPrev[(15 : Key)] ∧ ∀ j : Key, j < 15 → s.key j = s.keysPrev[j]) ∧
    ∀ k : Key, State.reset.key k = State.reset.keysPrev[k] := by decide

theorem test_witness_key_wait_fetch : let s := withBytes 0x200 [0xF1, 0x0A] (State.reset.setWaiting true)
    s.fault = none ∧ s.waiting = true ∧ fetch s = .ok (.ldK 1) := ⟨rfl, rfl, rfl⟩

/-- LdFFollowsTheConfiguration: the largest FONT_BASE, and both policies. -/
theorem test_witness_ldF : (⟨.glyph, 0xFB0, 60⟩ : Config).wf = true ∧ (⟨.glyph, 0xFB1, 60⟩ : Config).wf = false ∧
    (⟨.noop, 0x000, 60⟩ : Config).ldfPolicy = .noop := by decide

/-- LdBStoresDecimalDigits, LdMemVxStoresTheRegisters, LdVxMemLoadsTheRegisters: the last address inside, the first outside. -/
theorem test_witness_transfers : (State.reset.setI 0xFFD).i.toNat + 2 ≤ 0xFFF ∧ 0xFFF < (State.reset.setI 0xFFE).i.toNat + 2 ∧
    (State.reset.setI 0xFF0).i.toNat + (15 : Reg).val ≤ 0xFFF ∧
    0xFFF < (State.reset.setI 0xFF1).i.toNat + (15 : Reg).val := by decide

/-- RegistersChangeOnlyAsDestinationOrFlag, EachElementHasItsWritersOnly and PcMovesByTwoUnlessTheRuleSaysOtherwise: a flag
writer, a plain skip and the key wait complete. -/
theorem test_witness_whole_machine : [0x8014, 0x5010, 0xF10A, 0xD011, 0xF065].all (fun w => completes w State.reset) = true ∧
    writesFlag (.addReg 0 1) = true ∧ isDestination 15 (.addReg 0 1) = false ∧ isSkip (.seReg 0 1) = true ∧
    isJump (.ldK 1) = false := by decide

/-- MemoryPrimitivesActOnOneByte: the last address and the first above; two canonical memories that read alike. -/
theorem test_witness_memory : memRead [] 0xFFF = .ok 0 ∧ memRead [] 0x1000 = .error (.dataOutOfRange 0x1000) ∧
    Memory.wf (Memory.write (Memory.write [] 0xFFF 1) 0xFFF 0) = true :=
  ⟨rfl, rfl, by decide⟩

/-- LoadPlacesTheImage: the longest image, and one byte more. -/
theorem test_witness_load : (List.replicate 0xCA0 (0 : Byte)).length ≤ 0xCA0 ∧
    0xCA0 < (List.replicate 0xCA1 (0 : Byte)).length := by
  rw [List.length_replicate, List.length_replicate]
  omega

/-- FontPreloadPlacesTheGlyphs: the highest FONT_BASE it takes, the next one, and a font of another length. -/
theorem test_witness_font : conventionalFont.length = 80 ∧ (⟨.glyph, 0x1B0, 60⟩ : Config).fontBase + 80 ≤ 0x200 ∧
    0x200 < (⟨.glyph, 0x1B1, 60⟩ : Config).fontBase + 80 ∧ fontDigits0to7.length ≠ 80 := by decide

/-- HostTransactionsTouchOnlyKeysAndTimers: an event that is no step. -/
theorem test_witness_host_event : ∀ r, HostEvent.writeTimers 0xFF 0xFF ≠ .step r := fun _ h => by cases h

end Sys2Proof.Tests
end

section
/-! PROOFS. The class-level operations of spec/41_base_ops.md: JP, the four compare skips, LD Vx, kk, ADD Vx, kk and LD I. The
words come first, then what each state update leaves unchanged, then the meanings, from which each statement is assembled. -/

namespace Sys2Proof

/-! ### The words of the class-level operations

Each of these classes is one row of R80, so the class alone selects the operation; each operand is the field that the format
reads back (R72, R74). -/

theorem decodeWord_jp (nnn : Addr) : decodeWord (formatAddr 0x1 nnn) = .jp nnn := by
  simp (disch := decide) only [decodeWord, formatAddr_class, formatAddr_nnn]
  rfl

theorem decodeWord_seImm (x : Reg) (kk : Byte) : decodeWord (formatXKk 0x3 x kk) = .seImm x kk := by
  simp (disch := decide) only [decodeWord, formatXKk_class, formatXKk_x, formatXKk_kk]
  rfl

theorem decodeWord_sneImm (x : Reg) (kk : Byte) : decodeWord (formatXKk 0x4 x kk) = .sneImm x kk := by
  simp (disch := decide) only [decodeWord, formatXKk_class, formatXKk_x, formatXKk_kk]
  rfl

/-- n is no operand of the word (R84, R85). -/
theorem decodeWord_seReg (x y n : Fin 16) : decodeWord (formatXYN 0x5 x y n) = .seReg x y := by
  simp (disch := decide) only [decodeWord, formatXYN_class, formatXYN_x, formatXYN_y]
  rfl

theorem decodeWord_ldImm (x : Reg) (kk : Byte) : decodeWord (formatXKk 0x6 x kk) = .ldImm x kk := by
  simp (disch := decide) only [decodeWord, formatXKk_class, formatXKk_x, formatXKk_kk]
  rfl

theorem decodeWord_addImm (x : Reg) (kk : Byte) : decodeWord (formatXKk 0x7 x kk) = .addImm x kk := by
  simp (disch := decide) only [decodeWord, formatXKk_class, formatXKk_x, formatXKk_kk]
  rfl

/-- n is no operand of the word (R84, R85). -/
theorem decodeWord_sneReg (x y n : Fin 16) : decodeWord (formatXYN 0x9 x y n) = .sneReg x y := by
  simp (disch := decide) only [decodeWord, formatXYN_class, formatXYN_x, formatXYN_y]
  rfl

theorem decodeWord_ldI (nnn : Addr) : decodeWord (formatAddr 0xA nnn) = .ldI nnn := by
  simp (disch := decide) only [decodeWord, formatAddr_class, formatAddr_nnn]
  rfl

end Sys2Proof

namespace Sys2Proof.Machine

open Sys2Proof.Claims

/-! ### Zero-extension and addition as numbers -/

/-- An address field zero-extended is the word of its number (R73). -/
theorem zextAddr_eq_ofNat (nnn : Addr) : zextAddr nnn = BitVec.ofNat 16 nnn.toNat := by
  rw [← zextAddr_toNat, BitVec.ofNat_toNat, BitVec.setWidth_eq]

/-- Byte addition is the sum modulo 256 (R128). -/
theorem byte_add_eq_ofNat_mod (a b : Byte) : a + b = BitVec.ofNat 8 ((a.toNat + b.toNat) % 256) := by
  apply BitVec.eq_of_toNat_eq
  simp only [BitVec.toNat_add, BitVec.toNat_ofNat, Nat.mod_mod]

/-! ### What the state updates leave unchanged -/

/-- A write of the PC changes nothing else. -/
theorem keepsAllButPc_setPc (s : State) (w : Word) : KeepsAllButPc s (s.setPc w) :=
  ⟨fun _ => rfl, fun _ => rfl, ⟨rfl, rfl⟩, ⟨rfl, rfl⟩, ⟨rfl, rfl, rfl⟩, rfl, rfl⟩

/-- A write of one register and the move to the next word keep every field but the registers and the PC. -/
theorem keepsSpecials_setReg_advance (s : State) (x : Reg) (b : Byte) : KeepsSpecials s (s.setReg x b).advance :=
  ⟨⟨rfl, rfl⟩, ⟨rfl, rfl⟩, ⟨rfl, rfl, rfl⟩, rfl, rfl⟩

/-! ### The shapes of the operations -/

theorem onlyMovesPc_setPc (s : State) (w : Word) : OnlyMovesPc (.next (s.setPc w)) s w :=
  ⟨s.setPc w, rfl, rfl, keepsAllButPc_setPc s w⟩

/-- A skip on a test c of the condition p moves the PC by 4 or by 2 (R104). -/
theorem onlyMovesPc_skipIf (s : State) {c : Bool} {p : Prop} [Decidable p] (h : c = true ↔ p) :
    OnlyMovesPc (.next (s.skipIf c)) s (s.pc + if p then 4 else 2) := by
  refine ⟨s.skipIf c, rfl, ?_, keepsAllButPc_setPc s _⟩
  by_cases hp : p
  · rw [State.skipIf_pc, if_pos (h.2 hp), if_pos hp]
  · rw [State.skipIf_pc, if_neg (mt h.1 hp), if_neg hp]

theorem writesReg_setReg_advance (s : State) (x : Reg) (b : Byte) : WritesReg (.next (s.setReg x b).advance) s x b :=
  ⟨(s.setReg x b).advance, rfl, rfl, State.setReg_reg s x b, fun _ => rfl, keepsSpecials_setReg_advance s x b⟩

/-! ### The meanings -/

theorem exec_jp (nnn : Addr) (s : State) : exec (.jp nnn) s = .next (s.setPc (zextAddr nnn)) := rfl

theorem exec_seImm (x : Reg) (kk : Byte) (s : State) : exec (.seImm x kk) s = .next (s.skipIf (s.reg x == kk)) := rfl

theorem exec_sneImm (x : Reg) (kk : Byte) (s : State) : exec (.sneImm x kk) s = .next (s.skipIf (s.reg x != kk)) := rfl

theorem exec_seReg (x y : Reg) (s : State) : exec (.seReg x y) s = .next (s.skipIf (s.reg x == s.reg y)) := rfl

theorem exec_sneReg (x y : Reg) (s : State) : exec (.sneReg x y) s = .next (s.skipIf (s.reg x != s.reg y)) := rfl

theorem exec_ldImm (x : Reg) (kk : Byte) (s : State) : exec (.ldImm x kk) s = .next (s.setReg x kk).advance := rfl

theorem exec_addImm (x : Reg) (kk : Byte) (s : State) :
    exec (.addImm x kk) s = .next (s.setReg x (s.reg x + kk)).advance := rfl

theorem exec_ldI (nnn : Addr) (s : State) : exec (.ldI nnn) s = .next (s.setI (zextAddr nnn)).advance := rfl

/-! ### The statements -/

/-- Settles O22: JP is one write of the PC. -/
theorem jpSetsThePc : Obligations.JpSetsThePc := by
  intro nnn s
  refine ⟨?_, decodeWord_jp nnn⟩
  rw [exec_jp, ← zextAddr_eq_ofNat]
  exact onlyMovesPc_setPc s (zextAddr nnn)

/-- Settles O27: each of the four is skipIf on the test of its own condition. -/
theorem skipsCompareAndMoveThePc : Obligations.SkipsCompareAndMoveThePc := by
  intro x y kk s
  rw [exec_seImm, exec_sneImm, exec_seReg, exec_sneReg]
  exact ⟨onlyMovesPc_skipIf s beq_iff_eq, onlyMovesPc_skipIf s bne_iff_ne, onlyMovesPc_skipIf s beq_iff_eq,
    onlyMovesPc_skipIf s bne_iff_ne, decodeWord_seImm x kk, decodeWord_sneImm x kk,
    fun n => ⟨decodeWord_seReg x y n, decodeWord_sneReg x y n⟩⟩

/-- Settles O28: both are one register write; the byte sum of ADD is the sum modulo 256. -/
theorem immediateLoadAndAdd : Obligations.ImmediateLoadAndAdd := by
  intro x kk s
  rw [exec_ldImm, exec_addImm, ← byte_add_eq_ofNat_mod]
  exact ⟨writesReg_setReg_advance s x kk, writesReg_setReg_advance s x (s.reg x + kk), decodeWord_ldImm x kk,
    decodeWord_addImm x kk⟩

/-- Settles O29: LD I writes I and moves on; I takes nnn zero-extended. -/
theorem ldISetsTheAddressRegister : Obligations.LdISetsTheAddressRegister := by
  intro nnn s
  refine ⟨(s.setI (zextAddr nnn)).advance, exec_ldI nnn s, rfl, zextAddr_toNat nnn, ?_⟩
  exact ⟨fun _ => rfl, fun _ => rfl, rfl, ⟨rfl, rfl⟩, ⟨rfl, rfl, rfl⟩, ⟨rfl, rfl⟩, decodeWord_ldI nnn⟩

end Sys2Proof.Machine
end

section
/-! PROOFS. LD Vx, Vy, OR and AND of spec/42_alu.md: the words of class 8, the meanings, and the statement. Each of the three is
one register write and the move to the next word, the shape of `writesReg_setReg_advance`. -/

namespace Sys2Proof

/-! ### The words of class 8 -/

/-- Class 8 dispatches a second time, on n (R82). -/
theorem decodeWord_class8 (x y n : Fin 16) : decodeWord (formatXYN 0x8 x y n) = decode8 (formatXYN 0x8 x y n) := by
  simp (disch := decide) only [decodeWord, formatXYN_class]
  rfl

theorem decodeWord_ldReg (x y : Reg) : decodeWord (formatXYN 0x8 x y 0x0) = .ldReg x y := by
  rw [decodeWord_class8]
  simp (disch := decide) only [decode8, formatXYN_n, formatXYN_x, formatXYN_y]

theorem decodeWord_or (x y : Reg) : decodeWord (formatXYN 0x8 x y 0x1) = .or x y := by
  rw [decodeWord_class8]
  simp (disch := decide) only [decode8, formatXYN_n, formatXYN_x, formatXYN_y]

theorem decodeWord_and (x y : Reg) : decodeWord (formatXYN 0x8 x y 0x2) = .and x y := by
  rw [decodeWord_class8]
  simp (disch := decide) only [decode8, formatXYN_n, formatXYN_x, formatXYN_y]

end Sys2Proof

namespace Sys2Proof.Machine

open Sys2Proof.Claims

/-! ### The meanings of LD Vx, Vy, OR and AND -/

theorem exec_ldReg (x y : Reg) (s : State) : exec (.ldReg x y) s = .next (s.setReg x (s.reg y)).advance := rfl

theorem exec_or (x y : Reg) (s : State) : exec (.or x y) s = .next (s.setReg x (s.reg x ||| s.reg y)).advance := rfl

theorem exec_and (x y : Reg) (s : State) : exec (.and x y) s = .next (s.setReg x (s.reg x &&& s.reg y)).advance := rfl

/-- Settles O16: each of the three is one register write; no flag is written, so V[15] changes only as V[x]. -/
theorem moveOrAndResults : Obligations.MoveOrAndResults := by
  intro x y s
  rw [exec_ldReg, exec_or, exec_and]
  exact ⟨writesReg_setReg_advance s x (s.reg y), writesReg_setReg_advance s x (s.reg x ||| s.reg y),
    writesReg_setReg_advance s x (s.reg x &&& s.reg y), decodeWord_ldReg x y, decodeWord_or x y, decodeWord_and x y⟩

end Sys2Proof.Machine
end

section
/-! PROOFS. The beginning of the key wait of spec/44_keys.md: LD Vx, K from Idle is `enterWait`, which reads K only to copy it. -/

namespace Sys2Proof.Machine

open Sys2Proof.Claims

/-! ### What enterWait writes and leaves unchanged -/

@[simp] theorem State.enterWait_keysPrev (s : State) : s.enterWait.keysPrev = s.keys := rfl
@[simp] theorem State.enterWait_waiting (s : State) : s.enterWait.waiting = true := rfl
@[simp] theorem State.enterWait_keys (s : State) : s.enterWait.keys = s.keys := rfl
@[simp] theorem State.enterWait_pc (s : State) : s.enterWait.pc = s.pc := rfl

theorem keepsMemory_enterWait (s : State) : KeepsMemory s s.enterWait := fun _ => rfl

theorem keepsRegs_enterWait (s : State) : KeepsRegs s s.enterWait := fun _ => rfl

theorem keepsPointers_enterWait (s : State) : KeepsPointers s s.enterWait := ⟨rfl, rfl⟩

theorem keepsTimers_enterWait (s : State) : KeepsTimers s s.enterWait := ⟨rfl, rfl⟩

theorem keepsModelFields_enterWait (s : State) : KeepsModelFields s s.enterWait := ⟨rfl, rfl⟩

/-! ### The meaning of LD Vx, K -/

theorem exec_ldK (x : Reg) (s : State) : exec (.ldK x) s = execLdK x s := rfl

/-- From Idle the test of `waiting` fails, so the keys are not compared with the old snapshot (R193). -/
theorem execLdK_of_idle (x : Reg) {s : State} (h : s.waiting = false) : execLdK x s = .next s.enterWait :=
  if_neg (by simp [h])

/-- Settles O41: from Idle the instruction is enterWait, whatever K is. -/
theorem keyWaitBeginsWithASnapshot : Obligations.KeyWaitBeginsWithASnapshot := by
  intro x s hidle
  refine ⟨s.enterWait, ?_, s.enterWait_pc, fun _ => rfl, s.enterWait_waiting, s.enterWait_keys, keepsMemory_enterWait s,
    keepsRegs_enterWait s, keepsPointers_enterWait s, keepsTimers_enterWait s, keepsModelFields_enterWait s⟩
  rw [exec_ldK, execLdK_of_idle x hidle]

end Sys2Proof.Machine
end

section
/-! PROOFS. The timer transfers and the address addition of spec/45_transfer.md: LD Vx, DT; LD DT, Vx; LD ST, Vx; ADD I, Vx.
The words of class F come first, then what the writes of DT, ST and I leave unchanged, then the meanings and the statements. -/

namespace Sys2Proof

/-! ### The words of class F -/

/-- Class F dispatches a second time, on byte 1 (R83). -/
theorem decodeWord_classF (x : Reg) (kk : Byte) : decodeWord (formatXKk 0xF x kk) = decodeF (formatXKk 0xF x kk) := by
  simp (disch := decide) only [decodeWord, formatXKk_class]

theorem decodeWord_ldVxDt (x : Reg) : decodeWord (formatXKk 0xF x 0x07) = .ldVxDt x := by
  rw [decodeWord_classF]
  simp (disch := decide) only [decodeF, formatXKk_kk, formatXKk_x, if_pos]

theorem decodeWord_ldDtVx (x : Reg) : decodeWord (formatXKk 0xF x 0x15) = .ldDtVx x := by
  rw [decodeWord_classF]
  simp (disch := decide) only [decodeF, formatXKk_kk, formatXKk_x, if_pos, if_neg]

theorem decodeWord_ldStVx (x : Reg) : decodeWord (formatXKk 0xF x 0x18) = .ldStVx x := by
  rw [decodeWord_classF]
  simp (disch := decide) only [decodeF, formatXKk_kk, formatXKk_x, if_pos, if_neg]

theorem decodeWord_addI (x : Reg) : decodeWord (formatXKk 0xF x 0x1E) = .addI x := by
  rw [decodeWord_classF]
  simp (disch := decide) only [decodeF, formatXKk_kk, formatXKk_x, if_pos, if_neg]

end Sys2Proof

namespace Sys2Proof.Machine

open Sys2Proof.Claims

/-! ### What the writes of DT, ST and I leave unchanged -/

theorem setDt_advance_frame (s : State) (b : Byte) :
    KeepsMemory s (s.setDt b).advance ∧ KeepsRegs s (s.setDt b).advance ∧ KeepsPointers s (s.setDt b).advance ∧
      KeepsKeys s (s.setDt b).advance ∧ KeepsModelFields s (s.setDt b).advance :=
  ⟨fun _ => rfl, fun _ => rfl, ⟨rfl, rfl⟩, ⟨rfl, rfl, rfl⟩, rfl, rfl⟩

theorem setSt_advance_frame (s : State) (b : Byte) :
    KeepsMemory s (s.setSt b).advance ∧ KeepsRegs s (s.setSt b).advance ∧ KeepsPointers s (s.setSt b).advance ∧
      KeepsKeys s (s.setSt b).advance ∧ KeepsModelFields s (s.setSt b).advance :=
  ⟨fun _ => rfl, fun _ => rfl, ⟨rfl, rfl⟩, ⟨rfl, rfl, rfl⟩, rfl, rfl⟩

/-! ### The sum of ADD I -/

/-- The state that ADD I leaves for a given unbounded sum: the flag, the low 12 bits in I, the next word (R213). -/
def State.writeAddressSum (s : State) (sum : Nat) : State :=
  ((s.setFlag (addressOverflowFlag sum)).setI (BitVec.ofNat 16 (sum % 0x1000))).advance

theorem addressOverflowFlag_iff (sum : Nat) : addressOverflowFlag sum = true ↔ 0xFFF < sum := decide_eq_true_iff

/-- The low 12 bits of a sum fit the 16-bit I. -/
theorem State.writeAddressSum_i_toNat (s : State) (sum : Nat) : (s.writeAddressSum sum).i.toNat = sum % 0x1000 := by
  have hfits : sum % 0x1000 < 2 ^ 16 := by omega
  exact (BitVec.toNat_ofNat _ 16).trans (Nat.mod_eq_of_lt hfits)

theorem State.writeAddressSum_reg (s : State) (sum : Nat) (r : Reg) :
    (s.writeAddressSum sum).reg r = if r = 15 then (if 0xFFF < sum then 1 else 0) else s.reg r := by
  simp only [State.writeAddressSum, State.advance_reg, State.setI_reg, State.setFlag_reg, addressOverflowFlag_iff, flagReg]

theorem writeAddressSum_frame (s : State) (sum : Nat) :
    KeepsMemory s (s.writeAddressSum sum) ∧ (s.writeAddressSum sum).sp = s.sp ∧ KeepsTimers s (s.writeAddressSum sum) ∧
      KeepsKeys s (s.writeAddressSum sum) ∧ KeepsModelFields s (s.writeAddressSum sum) :=
  ⟨fun _ => rfl, rfl, ⟨rfl, rfl⟩, ⟨rfl, rfl, rfl⟩, rfl, rfl⟩

/-! ### The meanings -/

theorem exec_ldVxDt (x : Reg) (s : State) : exec (.ldVxDt x) s = .next (s.setReg x s.dt).advance := rfl

theorem exec_ldDtVx (x : Reg) (s : State) : exec (.ldDtVx x) s = .next (s.setDt (s.reg x)).advance := rfl

theorem exec_ldStVx (x : Reg) (s : State) : exec (.ldStVx x) s = .next (s.setSt (s.reg x)).advance := rfl

theorem exec_addI (x : Reg) (s : State) : exec (.addI x) s = .next (s.writeAddressSum (s.i.toNat + (s.reg x).toNat)) := rfl

/-! ### The statements -/

/-- Settles O44: LD Vx, DT is one register write; the other two are one write of their timer. -/
theorem timerTransfers : Obligations.TimerTransfers := by
  intro x s
  refine ⟨?_, ?_, ?_, decodeWord_ldVxDt x, decodeWord_ldDtVx x, decodeWord_ldStVx x⟩
  · rw [exec_ldVxDt]
    exact writesReg_setReg_advance s x s.dt
  · exact ⟨(s.setDt (s.reg x)).advance, exec_ldDtVx x s, rfl, rfl, rfl, setDt_advance_frame s (s.reg x)⟩
  · exact ⟨(s.setSt (s.reg x)).advance, exec_ldStVx x s, rfl, rfl, rfl, setSt_advance_frame s (s.reg x)⟩

/-- Settles O45: the flag is the only register written, after V[x] was read, so x = 15 is no case of its own. -/
theorem addIWritesOverflowAndTwelveBits : Obligations.AddIWritesOverflowAndTwelveBits := by
  intro x s
  obtain ⟨hmem, hsp, htimers, hkeys, hmodel⟩ := writeAddressSum_frame s (s.i.toNat + (s.reg x).toNat)
  exact ⟨s.writeAddressSum (s.i.toNat + (s.reg x).toNat), exec_addI x s, rfl, s.writeAddressSum_i_toNat _,
    s.writeAddressSum_reg _, hmem, hsp, htimers, hkeys, hmodel, decodeWord_addI x⟩

end Sys2Proof.Machine
end

section
/-! PROOFS. What every instruction does, said once: `Effect` lists, constructor by constructor, the states that an instruction
can leave when it completes. The statements over all instructions (which element has which writers, which register changes,
how the PC moves) and the invariant of a step are read off that table. -/

namespace Sys2Proof.Machine

open Sys2Proof.Claims

/-! ### The meanings not yet written as equations -/

theorem exec_cls (s : State) : exec .cls s = execCls s := rfl

theorem exec_ret (s : State) : exec .ret s = execRet s := rfl

theorem exec_call (nnn : Addr) (s : State) : exec (.call nnn) s = execCall nnn s := rfl

theorem exec_drw (x y : Reg) (n : Fin 16) (s : State) : exec (.drw x y n) s = execDrw x y n s := rfl

theorem exec_skp (x : Reg) (s : State) : exec (.skp x) s = execSkp x s := rfl

theorem exec_sknp (x : Reg) (s : State) : exec (.sknp x) s = execSknp x s := rfl

theorem exec_ldF (x : Reg) (s : State) : exec (.ldF x) s = ldFWith config x s := rfl

theorem exec_ldB (x : Reg) (s : State) : exec (.ldB x) s = execLdB x s := rfl

theorem exec_ldMemVx (x : Reg) (s : State) : exec (.ldMemVx x) s = execLdMemVx x s := rfl

theorem exec_ldVxMem (x : Reg) (s : State) : exec (.ldVxMem x) s = execLdVxMem x s := rfl

/-! ### The table of effects -/

/-- A completed write of memory: some memory that is canonical if the old one was. -/
def Rewrites (m m' : Memory) : Prop := Memory.wf m = true → Memory.wf m' = true

/-- What an instruction that completes under configuration c can make of s. The values it writes are left open where the rules
over all instructions do not depend on them. -/
def Effect (c : Config) (s t : State) : Instr → Prop
  | .hook0 _ | .hook8 _ | .hookE _ | .hookF _ => t = s.advance
  | .jp _ | .jpV0 _ => ∃ w, t = s.setPc w
  | .seImm _ _ | .sneImm _ _ | .seReg _ _ | .sneReg _ _ | .skp _ | .sknp _ => ∃ taken, t = s.skipIf taken
  | .ldImm x _ | .addImm x _ | .ldReg x _ | .or x _ | .and x _ | .xor x _ | .ldVxDt x => ∃ b, t = (s.setReg x b).advance
  | .addReg x _ | .sub x _ | .subn x _ | .shr x | .shl x => ∃ flag b, t = s.writeFlagged x flag b
  | .rnd x _ => ∃ b, t = (s.setReg x b).nextDraw.advance
  | .cls | .ldB _ | .ldMemVx _ => ∃ m, Rewrites s.mem m ∧ t = (s.setMem m).advance
  | .drw _ _ _ => ∃ m flag, Rewrites s.mem m ∧ t = ((s.setMem m).setFlag flag).advance
  | .call nnn => ∃ m, Rewrites s.mem m ∧ t = ((s.setMem m).setSp (s.sp + 2)).setPc (zextAddr nnn)
  | .ret => ∃ w, t = (s.setSp (s.sp - 2)).setPc w
  | .ldI nnn => t = (s.setI (zextAddr nnn)).advance
  | .addI _ => ∃ sum, t = s.writeAddressSum sum
  | .ldF _ => t = s.advance ∨ ∃ b, t = (s.setI (glyphAddress c b)).advance
  | .ldDtVx _ => ∃ b, t = (s.setDt b).advance
  | .ldStVx _ => ∃ b, t = (s.setSt b).advance
  | .ldVxMem x => ∃ v : Vector Byte 16, (∀ r : Reg, ¬r ≤ x → v[r] = s.reg r) ∧ t = (s.setRegs v).advance
  | .ldK x => t = s.enterWait ∨ (s.waiting = true ∧ t = s) ∨ ∃ k, t = s.leaveWait x k

/-- The state of an outcome that is written out. -/
theorem eq_of_next_eq {t u : State} {o : Out} (h : o = .next t) (ho : o = .next u) : t = u :=
  Host.Outcome.next.inj (h.symm.trans ho)

theorem rewrites_write {m : Memory} {a : Nat} (ha : a ≤ 0xFFF) (u : Byte) : Rewrites m (Memory.write m a u) :=
  fun h => Memory.wf_write h ha u

theorem Rewrites.trans {m m' m'' : Memory} (h : Rewrites m m') (h' : Rewrites m' m'') : Rewrites m m'' := fun hm => h' (h hm)

/-- Every instruction that completes has the effect the table gives it. -/
theorem execWith_effect {c : Config} {r : Byte} {i : Instr} {s t : State} (h : execWith c r i s = .next t) :
    Effect c s t i := by
  cases i
  case hook0 | hook8 | hookE | hookF | ldI => exact eq_of_next_eq h rfl
  case jp | jpV0 | seImm | sneImm | seReg | sneReg | ldImm | addImm | ldReg | or | and | xor | ldVxDt | rnd | addI | ldDtVx
    | ldStVx => exact ⟨_, eq_of_next_eq h rfl⟩
  case addReg | sub | subn | shr | shl => exact ⟨_, _, eq_of_next_eq h rfl⟩
  case cls => exact ⟨_, wf_clear, eq_of_next_eq h (execCls_next s)⟩
  case ret => exact ⟨_, eq_of_next_eq h (execRet_next s)⟩
  case call nnn =>
    have hslot := stackSlot_le s.sp
    exact ⟨_, (rewrites_write (by omega) _).trans (rewrites_write hslot _), eq_of_next_eq h (execCall_next nnn s)⟩
  case skp x =>
    rcases execSkp_cases x s with ⟨k, -, ho⟩ | ⟨-, ho⟩
    · exact ⟨_, eq_of_next_eq h ho⟩
    · cases ho.symm.trans h
  case sknp x =>
    rcases execSknp_cases x s with ⟨k, -, ho⟩ | ⟨-, ho⟩
    · exact ⟨_, eq_of_next_eq h ho⟩
    · cases ho.symm.trans h
  case drw x y n =>
    rcases execDrw_cases x y n s with ⟨-, ho⟩ | ⟨q, -, -, -, ho⟩
    · exact ⟨_, _, drawn_wf x y n, eq_of_next_eq h ho⟩
    · cases ho.symm.trans h
  case ldK x =>
    rcases execLdK_cases x s with ⟨-, ho⟩ | ⟨hw, -, ho⟩ | ⟨-, k, -, ho⟩
    · exact .inl (eq_of_next_eq h ho)
    · exact .inr (.inl ⟨hw, eq_of_next_eq h ho⟩)
    · exact .inr (.inr ⟨k, eq_of_next_eq h ho⟩)
  case ldF x =>
    rcases ldFWith_cases c x s with ⟨-, ho⟩ | ⟨-, ho⟩
    · exact .inr ⟨_, eq_of_next_eq h ho⟩
    · exact .inl (eq_of_next_eq h ho)
  case ldB x =>
    rcases execLdB_cases x s with ⟨hi, ho⟩ | ⟨-, ho⟩
    · refine ⟨_, ?_, eq_of_next_eq h ho⟩
      exact ((rewrites_write (by omega) _).trans (rewrites_write (by omega) _)).trans (rewrites_write hi _)
    · cases ho.symm.trans h
  case ldMemVx x =>
    rcases execLdMemVx_cases x s with ⟨hi, ho⟩ | ⟨-, ho⟩
    · exact ⟨_, fun hwf => wf_storeRegs hwf hi, eq_of_next_eq h ho⟩
    · cases ho.symm.trans h
  case ldVxMem x =>
    rcases execLdVxMem_cases x s with ⟨hi, ho⟩ | ⟨-, ho⟩
    · exact ⟨_, fun q hq => (reg_loadRegs s x q).trans (if_neg hq), eq_of_next_eq h ho⟩
    · cases ho.symm.trans h

theorem exec_effect {i : Instr} {s t : State} (h : exec i s = .next t) : Effect config s t i :=
  execWith_effect ((exec_eq_execWith i s).symm.trans h)

/-! ### Which element has which writers -/

/-- The elements that the table's effect of i leaves as they are (R23, R26, R28 to R32, R36). -/
theorem Effect.writers {c : Config} {i : Instr} {s t : State} (h : Effect c s t i) :
    (writesI i = false → t.i = s.i) ∧ (writesSp i = false → t.sp = s.sp) ∧
    ((∀ x, i ≠ .ldDtVx x) → t.dt = s.dt) ∧ ((∀ x, i ≠ .ldStVx x) → t.st = s.st) ∧ t.keys = s.keys ∧
    ((∀ x, i ≠ .ldK x) → t.keysPrev = s.keysPrev ∧ t.waiting = s.waiting) ∧
    (writesMemory i = false → t.mem = s.mem) ∧ ((∀ x kk, i ≠ .rnd x kk) → t.draws = s.draws) ∧ t.fault = s.fault := by
  cases i
  case hook0 | hook8 | hookE | hookF => obtain rfl := h; simp
  case ldI => obtain rfl := h; simp [writesI]
  case jp | jpV0 | seImm | sneImm | seReg | sneReg | skp | sknp => obtain ⟨_, rfl⟩ := h; simp
  case ldImm | addImm | ldReg | or | and | xor | ldVxDt => obtain ⟨_, rfl⟩ := h; simp
  case rnd => obtain ⟨_, rfl⟩ := h; simp
  case addI => obtain ⟨_, rfl⟩ := h; simp [State.writeAddressSum, writesI]
  case ldDtVx | ldStVx => obtain ⟨_, rfl⟩ := h; simp
  case ret => obtain ⟨_, rfl⟩ := h; simp [writesSp]
  case addReg | sub | subn | shr | shl => obtain ⟨_, _, rfl⟩ := h; simp [State.writeFlagged]
  case cls | ldB | ldMemVx => obtain ⟨_, -, rfl⟩ := h; simp [writesMemory]
  case call => obtain ⟨_, -, rfl⟩ := h; simp [writesMemory, writesSp]
  case drw => obtain ⟨_, _, -, rfl⟩ := h; simp [writesMemory]
  case ldVxMem => obtain ⟨_, -, rfl⟩ := h; simp
  case ldF => obtain rfl | ⟨_, rfl⟩ := h <;> simp [writesI]
  case ldK => obtain rfl | ⟨-, rfl⟩ | ⟨_, rfl⟩ := h <;> simp [State.enterWait, State.leaveWait]

/-- Settles O51: read off the table of effects. -/
theorem eachElementHasItsWritersOnly : Obligations.EachElementHasItsWritersOnly :=
  fun _ _ _ h => (exec_effect h).writers

/-! ### Which register changes -/

theorem eq_flagReg : (15 : Reg) = flagReg := rfl

/-- A flag instruction of class 8 leaves the flag in V[15] unless V[15] is its destination (R151). -/
theorem State.writeFlagged_reg (s : State) (x : Reg) (flag : Bool) (b : Byte) (r : Reg) :
    (s.writeFlagged x flag b).reg r = if r = x then b else if r = flagReg then (if flag then 1 else 0) else s.reg r := by
  simp only [State.writeFlagged, State.advance_reg, State.setReg_reg, State.setFlag_reg]

/-- A flag register holds 0 or 1. -/
theorem flagByte_cases (p : Prop) [Decidable p] : (if p then 1 else 0 : Byte) = 0 ∨ (if p then 1 else 0 : Byte) = 1 := by
  by_cases h : p
  · exact .inr (if_pos h)
  · exact .inl (if_neg h)

/-- The registers that the table's effect of i leaves as they are, and the flag it writes (R21, R22). -/
theorem Effect.registers {c : Config} {i : Instr} {s t : State} (h : Effect c s t i) :
    (writesFlag i = true → isDestination 15 i = false → t.reg 15 = 0 ∨ t.reg 15 = 1) ∧
    ∀ r, isDestination r i = false → (r = 15 → writesFlag i = false) → t.reg r = s.reg r := by
  cases i
  case hook0 | hook8 | hookE | hookF | ldI => obtain rfl := h; simp [writesFlag]
  case jp | jpV0 | seImm | sneImm | seReg | sneReg | skp | sknp | ldDtVx | ldStVx | ret =>
    obtain ⟨_, rfl⟩ := h; simp [writesFlag]
  case cls | ldB | ldMemVx | call => obtain ⟨_, -, rfl⟩ := h; simp [writesFlag]
  case ldF => obtain rfl | ⟨_, rfl⟩ := h <;> simp [writesFlag]
  case ldImm | addImm | ldReg | or | and | xor | ldVxDt | rnd =>
    obtain ⟨_, rfl⟩ := h
    simp +contextual [writesFlag, isDestination]
  case addReg | sub | subn | shr | shl =>
    obtain ⟨flag, b, rfl⟩ := h
    refine ⟨fun _ hd => ?_, fun r hd hf => ?_⟩
    · simp only [isDestination, beq_eq_false_iff_ne] at hd
      rw [State.writeFlagged_reg, if_neg hd]
      exact flagByte_cases _
    · simp only [isDestination, beq_eq_false_iff_ne] at hd
      have hr : r ≠ flagReg := fun h => by cases hf h
      rw [State.writeFlagged_reg, if_neg hd, if_neg hr]
  case drw =>
    obtain ⟨m, flag, -, rfl⟩ := h
    refine ⟨fun _ _ => ?_, fun r _ hf => ?_⟩
    · rw [State.advance_reg, State.setFlag_reg, if_pos eq_flagReg]
      exact flagByte_cases _
    · have hr : r ≠ flagReg := fun h => by cases hf h
      rw [State.advance_reg, State.setFlag_reg, if_neg hr, State.setMem_reg]
  case addI =>
    obtain ⟨sum, rfl⟩ := h
    refine ⟨fun _ _ => ?_, fun r _ hf => ?_⟩
    · rw [State.writeAddressSum_reg, if_pos rfl]
      exact flagByte_cases _
    · have hr : r ≠ 15 := fun h => by cases hf h
      rw [State.writeAddressSum_reg, if_neg hr]
  case ldVxMem x =>
    obtain ⟨v, hv, rfl⟩ := h
    exact ⟨fun hf => (by cases hf), fun r hd _ => hv r (of_decide_eq_false hd)⟩
  case ldK x =>
    refine ⟨fun hf => (by cases hf), fun r hd _ => ?_⟩
    obtain rfl | ⟨-, rfl⟩ | ⟨k, rfl⟩ := h
    · rfl
    · rfl
    · simp only [isDestination, beq_eq_false_iff_ne] at hd
      simp [State.leaveWait, hd]

/-- Settles O50: read off the table of effects. -/
theorem registersChangeOnlyAsDestinationOrFlag : Obligations.RegistersChangeOnlyAsDestinationOrFlag :=
  fun _ _ _ h => (exec_effect h).registers

/-! ### How the PC moves -/

/-- A skip goes over the next word or not (R104). -/
theorem Effect.pc_of_isSkip {c : Config} {i : Instr} {s t : State} (h : Effect c s t i) (hs : isSkip i = true) :
    t.pc = s.pc + 2 ∨ t.pc = s.pc + 4 := by
  cases i
  case seImm | sneImm | seReg | sneReg | skp | sknp =>
    obtain ⟨_ | _, rfl⟩ := h
    · exact .inl rfl
    · exact .inr rfl
  all_goals cases hs

/-- A key wait that goes on leaves the PC; one that ends moves it on (R193, R194). -/
theorem Effect.pc_of_ldK {c : Config} {x : Reg} {s t : State} (h : Effect c s t (.ldK x)) :
    t.pc = s.pc + 2 ∨ (t.pc = s.pc ∧ t.waiting = true) := by
  obtain rfl | ⟨hw, rfl⟩ | ⟨k, rfl⟩ := h
  · exact .inr ⟨rfl, rfl⟩
  · exact .inr ⟨rfl, hw⟩
  · exact .inl rfl

/-- Every other instruction but a jump goes on to the next word (R103). -/
theorem Effect.pc_add_two {c : Config} {i : Instr} {s t : State} (h : Effect c s t i) (hj : isJump i = false)
    (hs : isSkip i = false) (hk : ∀ x, i ≠ .ldK x) : t.pc = s.pc + 2 := by
  cases i
  case jp | jpV0 | call | ret => cases hj
  case seImm | sneImm | seReg | sneReg | skp | sknp => cases hs
  case ldK x => exact absurd rfl (hk x)
  case hook0 | hook8 | hookE | hookF | ldI => obtain rfl := h; rfl
  case ldF => obtain rfl | ⟨_, rfl⟩ := h <;> rfl
  case addReg | sub | subn | shr | shl => obtain ⟨_, _, rfl⟩ := h; rfl
  case drw => obtain ⟨_, _, -, rfl⟩ := h; rfl
  case cls | ldB | ldMemVx | ldVxMem => obtain ⟨_, -, rfl⟩ := h; rfl
  case ldImm | addImm | ldReg | or | and | xor | ldVxDt | rnd | addI | ldDtVx | ldStVx => obtain ⟨_, rfl⟩ := h; rfl

/-- Settles O52: a skip, the key wait and the rest, by the table of effects. -/
theorem pcMovesByTwoUnlessTheRuleSaysOtherwise : Obligations.PcMovesByTwoUnlessTheRuleSaysOtherwise := by
  intro i s t h hj
  have he := exec_effect h
  refine ⟨he.pc_of_isSkip, fun hs => ?_⟩
  by_cases hk : ∃ x, i = .ldK x
  · obtain ⟨x, rfl⟩ := hk
    exact he.pc_of_ldK.imp_right fun ⟨hpc, hw⟩ => ⟨hpc, hw, x, rfl⟩
  · exact .inl (he.pc_add_two hj hs (not_exists.1 hk))

/-! ### The invariant of a step -/

/-- An admissible FONT_BASE leaves room for every glyph in the 16 bits of I (D14). -/
theorem glyphAddress_toNat {c : Config} (hc : c.wf = true) (b : Byte) :
    (glyphAddress c b).toNat = c.fontBase + 5 * (b.toNat % 16) := by
  have hbase : c.fontBase ≤ 0xFB0 := of_decide_eq_true hc
  have hfits : c.fontBase + 5 * (b.toNat % 16) < 2 ^ 16 := by omega
  rw [glyphAddress, BitVec.toNat_ofNat, Nat.mod_eq_of_lt hfits]

theorem glyphAddress_le {c : Config} (hc : c.wf = true) (b : Byte) : (glyphAddress c b).toNat ≤ 0xFFF := by
  have hbase : c.fontBase ≤ 0xFB0 := of_decide_eq_true hc
  rw [glyphAddress_toNat hc]
  omega

/-- The writers of memory keep its canonical form. -/
theorem Effect.keeps_wf {c : Config} {i : Instr} {s t : State} (h : Effect c s t i) : Rewrites s.mem t.mem := by
  by_cases hw : writesMemory i = false
  · obtain ⟨-, -, -, -, -, -, hmem, -, -⟩ := h.writers
    exact fun hwf => (hmem hw).symm ▸ hwf
  · cases i
    case cls | ldB | ldMemVx => obtain ⟨m, hm, rfl⟩ := h; exact hm
    case call => obtain ⟨m, hm, rfl⟩ := h; exact hm
    case drw => obtain ⟨m, flag, hm, rfl⟩ := h; exact hm
    all_goals exact absurd rfl hw

/-- The writers of I leave at most 0xFFF there (R24). -/
theorem Effect.keeps_i_le {c : Config} (hc : c.wf = true) {i : Instr} {s t : State} (h : Effect c s t i)
    (hi : s.i.toNat ≤ 0xFFF) : t.i.toNat ≤ 0xFFF := by
  by_cases hw : writesI i = false
  · obtain ⟨hsame, -⟩ := h.writers
    rwa [hsame hw]
  · cases i
    case ldI nnn =>
      obtain rfl := h
      have := nnn.isLt
      rw [State.advance_i, State.setI_i, zextAddr_toNat]
      omega
    case addI =>
      obtain ⟨sum, rfl⟩ := h
      rw [State.writeAddressSum_i_toNat]
      omega
    case ldF =>
      obtain rfl | ⟨b, rfl⟩ := h
      · exact hi
      · exact glyphAddress_le hc b
    all_goals exact absurd rfl hw

/-- SP counts modulo 256 (R26). -/
theorem sp_add_two_toNat (b : Byte) : (b + 2).toNat = (b.toNat + 2) % 256 := BitVec.toNat_add b 2

theorem sp_sub_two_toNat (b : Byte) : (b - 2).toNat = (b.toNat + 254) % 256 := by
  rw [BitVec.toNat_sub, Nat.add_comm]
  rfl

/-- The writers of SP move it by 2 modulo 256, which keeps it even (R26). -/
theorem Effect.keeps_sp_even {c : Config} {i : Instr} {s t : State} (h : Effect c s t i) (hsp : s.sp.toNat % 2 = 0) :
    t.sp.toNat % 2 = 0 := by
  by_cases hw : writesSp i = false
  · obtain ⟨-, hsame, -⟩ := h.writers
    rwa [hsame hw]
  · cases i
    case call =>
      obtain ⟨m, -, rfl⟩ := h
      rw [State.setPc_sp, State.setSp_sp, sp_add_two_toNat]
      omega
    case ret =>
      obtain ⟨w, rfl⟩ := h
      rw [State.setPc_sp, State.setSp_sp, sp_sub_two_toNat]
      omega
    all_goals exact absurd rfl hw

theorem Effect.keeps_inv {c : Config} (hc : c.wf = true) {i : Instr} {s t : State} (h : Effect c s t i) (hs : s.Inv) :
    t.Inv := by
  obtain ⟨hwf, hi, hsp⟩ := hs
  exact ⟨h.keeps_wf hwf, h.keeps_i_le hc hi, h.keeps_sp_even hsp⟩

/-- R109 through the instruction that was fetched. Only LD Vx, K writes `waiting`; where it leaves it set, PC and memory are as
they were, so the same word is fetched again. -/
theorem Effect.keeps_waitsAtKeyWait {c : Config} {i : Instr} {s t : State} (h : Effect c s t i) (hf : fetch s = .ok i)
    (hs : s.WaitsAtKeyWait) : t.WaitsAtKeyWait := by
  intro hw
  by_cases hk : ∃ x, i = .ldK x
  · obtain ⟨x, rfl⟩ := hk
    obtain rfl | ⟨-, rfl⟩ | ⟨k, rfl⟩ := h
    · exact ⟨x, (fetch_congr rfl rfl).trans hf⟩
    · exact ⟨x, hf⟩
    · cases hw
  · obtain ⟨-, -, -, -, -, hwait, -, -, -⟩ := h.writers
    obtain ⟨-, hsame⟩ := hwait (not_exists.1 hk)
    obtain ⟨x, hx⟩ := hs (hsame.symm.trans hw)
    exact absurd ⟨x, Except.ok.inj (hf.symm.trans hx)⟩ hk

/-- A step under an admissible configuration keeps both invariants. -/
theorem stepWith_keeps_invariants {c : Config} {r : Byte} {s t : State} (hc : c.wf = true) (h : stepWith c r s = .next t) :
    (s.Inv → t.Inv) ∧ (s.WaitsAtKeyWait → t.WaitsAtKeyWait) := by
  obtain ⟨-, i, hf, hi⟩ := stepWith_next h
  have he := execWith_effect hi
  exact ⟨he.keeps_inv hc, he.keeps_waitsAtKeyWait hf⟩

/-- Settles O3: the machine's own step is a step under its configuration, and the table of effects keeps both invariants. -/
theorem stepKeepsTheInvariant : Obligations.StepKeepsTheInvariant := by
  rintro s t (h | ⟨c, r, hc, h⟩)
  · exact stepWith_keeps_invariants (by decide : config.wf = true) ((step_eq_stepWith s).symm.trans h)
  · exact stepWith_keeps_invariants hc h

end Sys2Proof.Machine
end

section
/-! PROOFS. The encoding of spec/30_encoding.md: the words of the instructions not yet covered, decoding as the inverse of
encoding, the opcode table row by row, and the word that is stored at the PC and run from there. -/

namespace Sys2Proof

/-! ### The classes that dispatch a second time -/

theorem decodeWord_of_class0 {w : Word} (h : fieldClass w = 0x0) : decodeWord w = decode0 w := by
  simp only [decodeWord, h]

theorem decodeWord_of_class8 {w : Word} (h : fieldClass w = 0x8) : decodeWord w = decode8 w := by
  simp only [decodeWord, h]

theorem decodeWord_of_classE {w : Word} (h : fieldClass w = 0xE) : decodeWord w = decodeE w := by
  simp only [decodeWord, h]

theorem decodeWord_of_classF {w : Word} (h : fieldClass w = 0xF) : decodeWord w = decodeF w := by
  simp only [decodeWord, h]

/-! ### The words that reach an operation -/

/-- x is no operand of the word (R81, R85). -/
theorem decodeWord_cls (x : Reg) : decodeWord (formatXKk 0x0 x 0xE0) = .cls := by
  rw [decodeWord_of_class0 (formatXKk_class (by decide) _ _)]
  simp (disch := decide) only [decode0, formatXKk_kk, if_pos]

/-- x is no operand of the word (R81, R85). -/
theorem decodeWord_ret (x : Reg) : decodeWord (formatXKk 0x0 x 0xEE) = .ret := by
  rw [decodeWord_of_class0 (formatXKk_class (by decide) _ _)]
  simp (disch := decide) only [decode0, formatXKk_kk, if_pos, if_neg]

theorem decodeWord_call (nnn : Addr) : decodeWord (formatAddr 0x2 nnn) = .call nnn := by
  simp (disch := decide) only [decodeWord, formatAddr_class, formatAddr_nnn]
  rfl

theorem decodeWord_jpV0 (nnn : Addr) : decodeWord (formatAddr 0xB nnn) = .jpV0 nnn := by
  simp (disch := decide) only [decodeWord, formatAddr_class, formatAddr_nnn]
  rfl

theorem decodeWord_rnd (x : Reg) (kk : Byte) : decodeWord (formatXKk 0xC x kk) = .rnd x kk := by
  simp (disch := decide) only [decodeWord, formatXKk_class, formatXKk_x, formatXKk_kk]
  rfl

theorem decodeWord_drw (x y n : Fin 16) : decodeWord (formatXYN 0xD x y n) = .drw x y n := by
  simp (disch := decide) only [decodeWord, formatXYN_class, formatXYN_x, formatXYN_y, formatXYN_n]
  rfl

theorem decodeWord_xor (x y : Reg) : decodeWord (formatXYN 0x8 x y 0x3) = .xor x y := by
  rw [decodeWord_class8]
  simp (disch := decide) only [decode8, formatXYN_n, formatXYN_x, formatXYN_y]

theorem decodeWord_addReg (x y : Reg) : decodeWord (formatXYN 0x8 x y 0x4) = .addReg x y := by
  rw [decodeWord_class8]
  simp (disch := decide) only [decode8, formatXYN_n, formatXYN_x, formatXYN_y]

theorem decodeWord_sub (x y : Reg) : decodeWord (formatXYN 0x8 x y 0x5) = .sub x y := by
  rw [decodeWord_class8]
  simp (disch := decide) only [decode8, formatXYN_n, formatXYN_x, formatXYN_y]

/-- y is no operand of the word (R85). -/
theorem decodeWord_shr (x y : Reg) : decodeWord (formatXYN 0x8 x y 0x6) = .shr x := by
  rw [decodeWord_class8]
  simp (disch := decide) only [decode8, formatXYN_n, formatXYN_x]

theorem decodeWord_subn (x y : Reg) : decodeWord (formatXYN 0x8 x y 0x7) = .subn x y := by
  rw [decodeWord_class8]
  simp (disch := decide) only [decode8, formatXYN_n, formatXYN_x, formatXYN_y]

/-- y is no operand of the word (R85). -/
theorem decodeWord_shl (x y : Reg) : decodeWord (formatXYN 0x8 x y 0xE) = .shl x := by
  rw [decodeWord_class8]
  simp (disch := decide) only [decode8, formatXYN_n, formatXYN_x]

theorem decodeWord_skp (x : Reg) : decodeWord (formatXKk 0xE x 0x9E) = .skp x := by
  rw [decodeWord_of_classE (formatXKk_class (by decide) _ _)]
  simp (disch := decide) only [decodeE, formatXKk_kk, formatXKk_x, if_pos]

theorem decodeWord_sknp (x : Reg) : decodeWord (formatXKk 0xE x 0xA1) = .sknp x := by
  rw [decodeWord_of_classE (formatXKk_class (by decide) _ _)]
  simp (disch := decide) only [decodeE, formatXKk_kk, formatXKk_x, if_pos, if_neg]

theorem decodeWord_ldK (x : Reg) : decodeWord (formatXKk 0xF x 0x0A) = .ldK x := by
  rw [decodeWord_classF]
  simp (disch := decide) only [decodeF, formatXKk_kk, formatXKk_x, if_pos, if_neg]

theorem decodeWord_ldF (x : Reg) : decodeWord (formatXKk 0xF x 0x29) = .ldF x := by
  rw [decodeWord_classF]
  simp (disch := decide) only [decodeF, formatXKk_kk, formatXKk_x, if_pos, if_neg]

theorem decodeWord_ldB (x : Reg) : decodeWord (formatXKk 0xF x 0x33) = .ldB x := by
  rw [decodeWord_classF]
  simp (disch := decide) only [decodeF, formatXKk_kk, formatXKk_x, if_pos, if_neg]

theorem decodeWord_ldMemVx (x : Reg) : decodeWord (formatXKk 0xF x 0x55) = .ldMemVx x := by
  rw [decodeWord_classF]
  simp (disch := decide) only [decodeF, formatXKk_kk, formatXKk_x, if_pos, if_neg]

theorem decodeWord_ldVxMem (x : Reg) : decodeWord (formatXKk 0xF x 0x65) = .ldVxMem x := by
  rw [decodeWord_classF]
  simp (disch := decide) only [decodeF, formatXKk_kk, formatXKk_x, if_pos, if_neg]

/-! ### The words that reach a hook (R86) -/

/-- A sub-opcode that byte 1 does not hold as a number is not byte 1. -/
theorem formatAddr_kk_ne {c : Nat} (hc : c < 16) {nnn : Addr} {k : Byte} (h : nnn.toNat % 256 ≠ k.toNat) :
    fieldKk (formatAddr c nnn) ≠ k :=
  fun he => h ((formatAddr_kk hc nnn).symm.trans (congrArg BitVec.toNat he))

theorem decodeWord_hook0 {nnn : Addr} (h : hook0Word nnn = true) : decodeWord (formatAddr 0x0 nnn) = .hook0 nnn := by
  simp only [hook0Word, List.all_cons, List.all_nil, Bool.and_true, Bool.and_eq_true, bne_iff_ne] at h
  obtain ⟨hcls, hret⟩ := h
  rw [decodeWord_of_class0 (formatAddr_class (c := 0x0) (by decide) _), decode0, if_neg (formatAddr_kk_ne (by decide) hcls),
    if_neg (formatAddr_kk_ne (by decide) hret), formatAddr_nnn (by decide)]

theorem decodeWord_hookE {low : Addr} (h : hookEWord low = true) : decodeWord (formatAddr 0xE low) = .hookE low := by
  simp only [hookEWord, List.all_cons, List.all_nil, Bool.and_true, Bool.and_eq_true, bne_iff_ne] at h
  obtain ⟨hskp, hsknp⟩ := h
  rw [decodeWord_of_classE (formatAddr_class (c := 0xE) (by decide) _), decodeE, if_neg (formatAddr_kk_ne (by decide) hskp),
    if_neg (formatAddr_kk_ne (by decide) hsknp), formatAddr_nnn (by decide)]

theorem decodeWord_hookF {low : Addr} (h : hookFWord low = true) : decodeWord (formatAddr 0xF low) = .hookF low := by
  simp only [hookFWord, List.all_cons, List.all_nil, Bool.and_true, Bool.and_eq_true, bne_iff_ne] at h
  obtain ⟨h07, h0A, h15, h18, h1E, h29, h33, h55, h65⟩ := h
  have hne : ∀ k : Byte, low.toNat % 256 ≠ k.toNat → fieldKk (formatAddr 0xF low) ≠ k :=
    fun _ => formatAddr_kk_ne (by decide)
  rw [decodeWord_of_classF (formatAddr_class (c := 0xF) (by decide) _), decodeF, if_neg (hne 0x07 h07), if_neg (hne 0x0A h0A),
    if_neg (hne 0x15 h15), if_neg (hne 0x18 h18), if_neg (hne 0x1E h1E), if_neg (hne 0x29 h29), if_neg (hne 0x33 h33),
    if_neg (hne 0x55 h55), if_neg (hne 0x65 h65), formatAddr_nnn (by decide)]

/-- The hook's digits are 8, 9, A, B, C, D and F: the ones that no row of class 8 names. -/
theorem decodeWord_hook8 {low : Addr} (h : hook8Word low = true) : decodeWord (formatAddr 0x8 low) = .hook8 low := by
  have hn := formatAddr_n (c := 0x8) (by decide) low
  simp only [hook8Word, List.contains_iff_mem, List.mem_cons, List.not_mem_nil, or_false] at h
  rw [decodeWord_of_class8 (formatAddr_class (c := 0x8) (by decide) _), decode8]
  split
  case h_10 => rw [formatAddr_nnn (by decide)]
  all_goals
    rename_i hrow
    rw [hrow] at hn
    omega

/-! ### Decoding inverts encoding -/

theorem decodeWord_encode {i : Instr} (h : i.wellFormed = true) : decodeWord (encode i) = i := by
  cases i
  case cls => exact decodeWord_cls 0
  case ret => exact decodeWord_ret 0
  case hook0 nnn => exact decodeWord_hook0 h
  case jp nnn => exact decodeWord_jp nnn
  case call nnn => exact decodeWord_call nnn
  case seImm x kk => exact decodeWord_seImm x kk
  case sneImm x kk => exact decodeWord_sneImm x kk
  case seReg x y => exact decodeWord_seReg x y 0
  case ldImm x kk => exact decodeWord_ldImm x kk
  case addImm x kk => exact decodeWord_addImm x kk
  case ldReg x y => exact decodeWord_ldReg x y
  case or x y => exact decodeWord_or x y
  case and x y => exact decodeWord_and x y
  case xor x y => exact decodeWord_xor x y
  case addReg x y => exact decodeWord_addReg x y
  case sub x y => exact decodeWord_sub x y
  case shr x => exact decodeWord_shr x 0
  case subn x y => exact decodeWord_subn x y
  case shl x => exact decodeWord_shl x 0
  case hook8 low => exact decodeWord_hook8 h
  case sneReg x y => exact decodeWord_sneReg x y 0
  case ldI nnn => exact decodeWord_ldI nnn
  case jpV0 nnn => exact decodeWord_jpV0 nnn
  case rnd x kk => exact decodeWord_rnd x kk
  case drw x y n => exact decodeWord_drw x y n
  case skp x => exact decodeWord_skp x
  case sknp x => exact decodeWord_sknp x
  case hookE low => exact decodeWord_hookE h
  case ldVxDt x => exact decodeWord_ldVxDt x
  case ldK x => exact decodeWord_ldK x
  case ldDtVx x => exact decodeWord_ldDtVx x
  case ldStVx x => exact decodeWord_ldStVx x
  case addI x => exact decodeWord_addI x
  case ldF x => exact decodeWord_ldF x
  case ldB x => exact decodeWord_ldB x
  case ldMemVx x => exact decodeWord_ldMemVx x
  case ldVxMem x => exact decodeWord_ldVxMem x
  case hookF low => exact decodeWord_hookF h

/-- The two bytes of a word decode as the word. -/
theorem decode_hiByte_loByte (w : Word) : decode (hiByte w) (loByte w) = decodeWord w := by
  rw [decode, Machine.pair_hiByte_loByte]

/-- Settles O11: one lemma for each constructor's word, and a word is its two bytes. -/
theorem decodeInvertsEncode : Obligations.DecodeInvertsEncode := by
  intro i h
  refine ⟨decodeWord_encode h, fun rest => ?_⟩
  show Except.ok (decode (hiByte (encode i)) (loByte (encode i)), rest) = .ok (i, rest)
  rw [decode_hiByte_loByte, decodeWord_encode h]

/-- Settles O13: the words of R85 were read at every value of the ignored field. -/
theorem ignoredBitsDoNotMatter : Obligations.IgnoredBitsDoNotMatter := fun x y n =>
  ⟨decodeWord_cls x, decodeWord_ret x, decodeWord_shr x y, decodeWord_shl x y, decodeWord_seReg x y n, decodeWord_sneReg x y n⟩

/-- Settles O14: eight closed words, each run through the decoder. -/
theorem decodeExamplesOfTheSpec : Obligations.DecodeExamplesOfTheSpec := by
  unfold Obligations.DecodeExamplesOfTheSpec
  decide

/-! ### The opcode table -/

/-- The masks of the table keep the class and the low j bits of a word, j being 0, 4 or 8. -/
theorem and_tableMask (w : Word) {j : Nat} (hj : j ≤ 12) :
    w.toNat &&& (0xF000 + (2 ^ j - 1)) = w.toNat / 4096 * 4096 + w.toNat % 2 ^ j := by
  have hw := w.isLt
  have hpow : 2 ^ j ≤ 2 ^ 12 := Nat.pow_le_pow_right (by decide) hj
  have hpos : 0 < 2 ^ j := Nat.two_pow_pos j
  have hhigh : (w.toNat &&& (0xF000 + (2 ^ j - 1))) / 2 ^ 12 = w.toNat / 4096 := by
    rw [Nat.and_div_two_pow, show (0xF000 + (2 ^ j - 1)) / 2 ^ 12 = 2 ^ 4 - 1 by omega, Nat.and_two_pow_sub_one_eq_mod]
    omega
  have hlow : (w.toNat &&& (0xF000 + (2 ^ j - 1))) % 2 ^ 12 = w.toNat % 2 ^ j := by
    rw [Nat.and_mod_two_pow, show (0xF000 + (2 ^ j - 1)) % 2 ^ 12 = 2 ^ j - 1 by omega, Nat.and_two_pow_sub_one_eq_mod,
      Nat.mod_mod_of_dvd _ (Nat.pow_dvd_pow 2 hj)]
  omega

/-- A row matches the words of its class with its low bits. -/
theorem matches_tableMask {j : Nat} (hj : j ≤ 12) (name : String) (p : Nat) (fs : List (Nat × Nat)) (w : Word) :
    OpcodeRow.matches ⟨name, p, 0xF000 + (2 ^ j - 1), fs⟩ w =
      (decide ((fieldClass w).val = p / 4096) && decide (w.toNat % 2 ^ j = p % 4096)) := by
  have hlow : w.toNat % 2 ^ j < 2 ^ 12 :=
    Nat.lt_of_lt_of_le (Nat.mod_lt _ (Nat.two_pow_pos j)) (Nat.pow_le_pow_right (by decide) hj)
  rw [OpcodeRow.matches, and_tableMask w hj, fieldClass_val, Bool.eq_iff_iff, beq_iff_eq, Bool.and_eq_true,
    decide_eq_true_eq, decide_eq_true_eq]
  generalize w.toNat % 2 ^ j = low at *
  show _ + low = p ↔ _
  omega

theorem matches_class (name : String) (p : Nat) (fs : List (Nat × Nat)) (w : Word) :
    OpcodeRow.matches ⟨name, p, 0xF000, fs⟩ w = (decide ((fieldClass w).val = p / 4096) && decide (0 = p % 4096)) := by
  rw [← Nat.mod_one w.toNat]
  exact matches_tableMask (j := 0) (by decide) name p fs w

theorem matches_class_kk (name : String) (p : Nat) (fs : List (Nat × Nat)) (w : Word) :
    OpcodeRow.matches ⟨name, p, 0xF0FF, fs⟩ w =
      (decide ((fieldClass w).val = p / 4096) && decide ((fieldKk w).toNat = p % 4096)) := by
  rw [fieldKk_toNat]
  exact matches_tableMask (j := 8) (by decide) name p fs w

theorem matches_class_n (name : String) (p : Nat) (fs : List (Nat × Nat)) (w : Word) :
    OpcodeRow.matches ⟨name, p, 0xF00F, fs⟩ w =
      (decide ((fieldClass w).val = p / 4096) && decide ((fieldN w).val = p % 4096)) := by
  rw [fieldN_val]
  exact matches_tableMask (j := 4) (by decide) name p fs w


/-- The rows of a class, in the table's order. -/
def rowsOfClass (c : Fin 16) : List OpcodeRow := opcodeRows.filter (fun r => r.pattern / 4096 = c.val)

/-- The three masks of the table. -/
theorem mask_of_mem : ∀ r ∈ opcodeRows, r.mask = 0xF000 ∨ r.mask = 0xF00F ∨ r.mask = 0xF0FF := by decide

/-- A row that a word matches is a row of the word's class. -/
theorem class_of_matches {r : OpcodeRow} (hr : r ∈ opcodeRows) {w : Word} (h : r.matches w = true) :
    r.pattern / 4096 = (fieldClass w).val := by
  obtain ⟨name, p, mask, fs⟩ := r
  have hmask := mask_of_mem _ hr
  rcases hmask with rfl | rfl | rfl
  · rw [matches_class, Bool.and_eq_true, decide_eq_true_eq] at h
    exact h.1.symm
  · rw [matches_class_n, Bool.and_eq_true, decide_eq_true_eq] at h
    exact h.1.symm
  · rw [matches_class_kk, Bool.and_eq_true, decide_eq_true_eq] at h
    exact h.1.symm

/-- A word's row is the first match among the rows of its class. -/
theorem rowOf_eq_find_class {w : Word} {c : Fin 16} (h : fieldClass w = c) :
    rowOf w = (rowsOfClass c).find? (fun r => r.matches w) := by
  rw [rowOf, rowsOfClass, List.find?_filter]
  refine List.find?_congr fun r hr => ?_
  cases hm : r.matches w
  · simp
  · simp [class_of_matches hr hm, h]

/-- The row of the table that a word has, and that its decoded instruction is of that row with that row's operands. -/
def AgreesWithTable (w : Word) (i : Instr) : Prop :=
  ∃ row, rowOf w = some row ∧ i.mnemonic = row.mnemonic ∧ i.operands = row.fields.map (bitField w) ∧ i.wellFormed = true

/-! ### The table's fields as the decoder's fields -/

theorem bitField_bitsX (w : Word) : bitField w bitsX = (fieldX w).val := (fieldX_val w).symm

theorem bitField_bitsY (w : Word) : bitField w bitsY = (fieldY w).val := (fieldY_val w).symm

theorem bitField_bitsN (w : Word) : bitField w bitsN = (fieldN w).val := by
  rw [fieldN_val, bitField, bitsN, pow_zero, Nat.div_one]
  rfl

theorem bitField_bitsKk (w : Word) : bitField w bitsKk = (fieldKk w).toNat := by
  rw [fieldKk_toNat, bitField, bitsKk, pow_zero, Nat.div_one]
  rfl

theorem bitField_bitsNnn (w : Word) : bitField w bitsNnn = (fieldNnn w).toNat := by
  rw [fieldNnn_toNat, bitField, bitsNnn, pow_zero, Nat.div_one]
  rfl


theorem rowsOfClass_0 : rowsOfClass 0x0 =
    [⟨"CLS", 0x00E0, 0xF0FF, []⟩, ⟨"RET", 0x00EE, 0xF0FF, []⟩, ⟨"HOOK_0", 0x0000, 0xF000, [bitsNnn]⟩] := by decide

theorem rowsOfClass_8 : rowsOfClass 0x8 = opcodeRows8 := by decide

theorem rowsOfClass_E : rowsOfClass 0xE =
    [⟨"SKP", 0xE09E, 0xF0FF, [bitsX]⟩, ⟨"SKNP", 0xE0A1, 0xF0FF, [bitsX]⟩, ⟨"HOOK_E", 0xE000, 0xF000, []⟩] := by decide

theorem rowsOfClass_F : rowsOfClass 0xF = opcodeRowsF := by decide

theorem fieldNnn_mod_256 (w : Word) : (fieldNnn w).toNat % 256 = (fieldKk w).toNat := by
  rw [fieldNnn_toNat, fieldKk_toNat]
  omega

theorem fieldNnn_mod_16 (w : Word) : (fieldNnn w).toNat % 16 = (fieldN w).val := by
  rw [fieldNnn_toNat, fieldN_val]
  omega

/-! ### Class by class

In the classes with more than one row, the table and the decoder test the same field against the same values in the same
order. -/

theorem decode0_agreesWithTable {w : Word} (h : fieldClass w = 0x0) : AgreesWithTable w (decode0 w) := by
  have hrow := rowOf_eq_find_class h
  simp only [rowsOfClass_0, List.find?_cons, matches_class, matches_class_kk, h] at hrow
  simp only [decode0, BitVec.toNat_eq]
  split_ifs
  all_goals simp_all [AgreesWithTable, Instr.mnemonic, Instr.operands, bitField_bitsNnn, Instr.wellFormed, hook0Word,
    fieldNnn_mod_256]

theorem decodeE_agreesWithTable {w : Word} (h : fieldClass w = 0xE) : AgreesWithTable w (decodeE w) := by
  have hrow := rowOf_eq_find_class h
  simp only [rowsOfClass_E, List.find?_cons, matches_class, matches_class_kk, h] at hrow
  simp only [decodeE, BitVec.toNat_eq]
  split_ifs
  all_goals simp_all [AgreesWithTable, Instr.mnemonic, Instr.operands, bitField_bitsX, Instr.wellFormed, hookEWord,
    fieldNnn_mod_256]

theorem decodeF_agreesWithTable {w : Word} (h : fieldClass w = 0xF) : AgreesWithTable w (decodeF w) := by
  have hrow := rowOf_eq_find_class h
  simp only [rowsOfClass_F, opcodeRowsF, List.find?_cons, matches_class, matches_class_kk, h] at hrow
  simp only [decodeF, BitVec.toNat_eq]
  split_ifs
  all_goals simp_all [AgreesWithTable, Instr.mnemonic, Instr.operands, bitField_bitsX, Instr.wellFormed, hookFWord,
    fieldNnn_mod_256]

theorem decode8_agreesWithTable {w : Word} (h : fieldClass w = 0x8) : AgreesWithTable w (decode8 w) := by
  have hrow := rowOf_eq_find_class h
  simp only [rowsOfClass_8, opcodeRows8, List.find?_cons, matches_class, matches_class_n, h] at hrow
  generalize hn : fieldN w = n at hrow
  fin_cases n
  all_goals simp_all [decode8, AgreesWithTable, Instr.mnemonic, Instr.operands, bitField_bitsX, bitField_bitsY,
    Instr.wellFormed, hook8Word, fieldNnn_mod_16]

/-- A class of one row that constrains nothing but the class. -/
theorem agreesWithTable_of_single {w : Word} {c : Fin 16} (h : fieldClass w = c) {name : String} {fs : List (Nat × Nat)}
    (hrows : rowsOfClass c = [⟨name, c.val * 4096, 0xF000, fs⟩]) {i : Instr} (hname : i.mnemonic = name)
    (hops : i.operands = fs.map (bitField w)) (hwf : i.wellFormed = true) : AgreesWithTable w i := by
  refine ⟨⟨name, c.val * 4096, 0xF000, fs⟩, ?_, hname, hops, hwf⟩
  rw [rowOf_eq_find_class h, hrows]
  simp [matches_class, h]

theorem eq_last_class : ∀ c : Fin 16, c ∉ [0x0, 0x1, 0x2, 0x3, 0x4, 0x5, 0x6, 0x7, 0x8, 0x9, 0xA, 0xB, 0xC, 0xD, 0xE] →
    c = 0xF := by decide

theorem decodeWord_agreesWithTable (w : Word) : AgreesWithTable w (decodeWord w) := by
  have hx := bitField_bitsX w
  have hy := bitField_bitsY w
  have hkk := bitField_bitsKk w
  have hnnn := bitField_bitsNnn w
  unfold decodeWord
  split
  case h_1 h => exact decode0_agreesWithTable h
  case h_2 h => exact agreesWithTable_of_single h rfl rfl (by simp [Instr.operands, hnnn]) rfl
  case h_3 h => exact agreesWithTable_of_single h rfl rfl (by simp [Instr.operands, hnnn]) rfl
  case h_4 h => exact agreesWithTable_of_single h rfl rfl (by simp [Instr.operands, hx, hkk]) rfl
  case h_5 h => exact agreesWithTable_of_single h rfl rfl (by simp [Instr.operands, hx, hkk]) rfl
  case h_6 h => exact agreesWithTable_of_single h rfl rfl (by simp [Instr.operands, hx, hy]) rfl
  case h_7 h => exact agreesWithTable_of_single h rfl rfl (by simp [Instr.operands, hx, hkk]) rfl
  case h_8 h => exact agreesWithTable_of_single h rfl rfl (by simp [Instr.operands, hx, hkk]) rfl
  case h_9 h => exact decode8_agreesWithTable h
  case h_10 h => exact agreesWithTable_of_single h rfl rfl (by simp [Instr.operands, hx, hy]) rfl
  case h_11 h => exact agreesWithTable_of_single h rfl rfl (by simp [Instr.operands, hnnn]) rfl
  case h_12 h => exact agreesWithTable_of_single h rfl rfl (by simp [Instr.operands, hnnn]) rfl
  case h_13 h => exact agreesWithTable_of_single h rfl rfl (by simp [Instr.operands, hx, hkk]) rfl
  case h_14 h => exact agreesWithTable_of_single h rfl rfl (by simp [Instr.operands, hx, hy, bitField_bitsN]) rfl
  case h_15 h => exact decodeE_agreesWithTable h
  case h_16 => exact decodeF_agreesWithTable (eq_last_class (fieldClass w) (by simp_all))

/-- Settles O12: a word's row is the first match among the rows of its class, which the decoder's dispatch follows. -/
theorem decoderAgreesWithTheOpcodeTable : Obligations.DecoderAgreesWithTheOpcodeTable := decodeWord_agreesWithTable

end Sys2Proof

namespace Sys2Proof.Machine

open Sys2Proof.Claims

/-! ### A word stored at the PC -/

theorem hiByte_eq_ofNat (w : Word) : hiByte w = BitVec.ofNat 8 (w.toNat / 256) := by
  rw [← hiByte_toNat, BitVec.ofNat_toNat, BitVec.setWidth_eq]

theorem loByte_eq_ofNat (w : Word) : loByte w = BitVec.ofNat 8 (w.toNat % 256) := by
  rw [← loByte_toNat, BitVec.ofNat_toNat, BitVec.setWidth_eq]

theorem layWord_toNat (w : Word) : layWord w.toNat = [hiByte w, loByte w] := by
  have hlo : BitVec.ofNat 8 w.toNat = BitVec.ofNat 8 (w.toNat % 256) := BitVec.eq_of_toNat_eq (by simp)
  rw [layWord, hlo, hiByte_eq_ofNat, loByte_eq_ofNat]

/-- Where the PC leaves a place for a word, the word goes there, high byte first (R70). -/
theorem withFetchWord_eq {s : State} (hpc : s.pc.toNat ≤ 0xFFE) (w : Word) :
    s.withFetchWord 16 w.toNat = s.setMem (Memory.writeBytes s.mem s.pc.toNat [hiByte w, loByte w]) := by
  rw [State.withFetchWord, Nat.mod_eq_of_lt w.isLt, State.placeWord, if_neg (by omega), layWord_toNat]

theorem read_writeWord (m : Memory) (a : Nat) (hi lo : Byte) (b : Nat) :
    Memory.read (Memory.writeBytes m a [hi, lo]) b = if b = a + 1 then lo else if b = a then hi else Memory.read m b := by
  simp only [Memory.writeBytes, Memory.read_write]

/-- The fetch finds the word that was stored at the PC. -/
theorem fetch_withFetchWord {s : State} (hpc : s.pc.toNat ≤ 0xFFE) (w : Word) :
    fetch (s.withFetchWord 16 w.toNat) = .ok (decodeWord w) := by
  rw [withFetchWord_eq hpc, fetch_ok (by simpa using hpc)]
  simp [read_writeWord, decode_hiByte_loByte]

/-- A machine with no fault runs what it fetches. -/
theorem step_of_fetch {s : State} {i : Instr} (hf : s.fault = none) (hi : fetch s = .ok i) : step s = exec i s := by
  simp only [step, hf, hi]

/-- Settles O15: the word that is fetched is the encoding of i, which decodes as i. -/
theorem stepRunsTheWordPlacedAtThePc : Obligations.StepRunsTheWordPlacedAtThePc := by
  intro i s hwf hf hpc placed
  have hplaced : placed = s.setMem (Memory.writeBytes s.mem s.pc.toNat [hiByte (encode i), loByte (encode i)]) :=
    withFetchWord_eq hpc (encode i)
  have hfetch : fetch placed = .ok i := by
    rw [← decodeWord_encode hwf]
    exact fetch_withFetchWord hpc (encode i)
  refine ⟨step_of_fetch ?_ hfetch, ?_⟩
  · rw [hplaced]
    exact hf
  · rw [hplaced]
    refine ⟨rfl, fun _ => rfl, ⟨⟨rfl, rfl⟩, ⟨rfl, rfl⟩, ⟨rfl, rfl, rfl⟩, rfl, rfl⟩, fun a ha => ?_⟩
    obtain ⟨hne, hne'⟩ := not_or.1 ha
    rw [State.setMem_mem, read_writeWord, if_neg hne', if_neg hne]

end Sys2Proof.Machine
end

section
/-! PROOFS. The step of spec/40_dispatch.md and the faults of spec/60_exceptions.md: what a step runs, which instruction can
fault and with what, that a fault changes nothing else and stays, and what the step's parameters can change. -/

namespace Sys2Proof.Machine

open Sys2Proof.Claims

/-! ### What a step runs -/

theorem step_of_fault {s : State} {f : Fault} (h : s.fault = some f) : step s = .fault f := by
  simp only [step, h]

theorem stepWith_of_fault {s : State} {f : Fault} (h : s.fault = some f) (c : Config) (r : Byte) :
    stepWith c r s = .fault f := by
  simp only [stepWith, h]

theorem step_of_fetch_error {s : State} {f : Fault} (hf : s.fault = none) (he : fetch s = .error f) : step s = .fault f := by
  simp only [step, hf, he]

theorem stepWith_of_fetch_error {s : State} {f : Fault} (hf : s.fault = none) (he : fetch s = .error f) (c : Config)
    (r : Byte) : stepWith c r s = .fault f := by
  simp only [stepWith, hf, he]

theorem stepWith_of_fetch {s : State} {i : Instr} (hf : s.fault = none) (hi : fetch s = .ok i) (c : Config) (r : Byte) :
    stepWith c r s = execWith c r i s := by
  simp only [stepWith, hf, hi]

/-- The step transaction leaves what the step answers, and after a fault the state before it with the fault recorded. -/
theorem apply_step_of_next {c : Config} {r : Byte} {s t : State} (h : stepWith c r s = .next t) :
    (HostEvent.step r).apply c s = t := by
  simp only [HostEvent.apply, h, afterStep]

theorem apply_step_of_fault {c : Config} {r : Byte} {s : State} {f : Fault} (h : stepWith c r s = .fault f) :
    (HostEvent.step r).apply c s = s.raise f := by
  simp only [HostEvent.apply, h, afterStep]

/-- Recording again the fault that is recorded changes nothing. -/
theorem raise_of_fault {s : State} {f : Fault} (h : s.fault = some f) : s.raise f = s :=
  State.eq_of_fields rfl rfl rfl rfl rfl rfl rfl rfl rfl rfl h.symm rfl

/-- A faulted machine takes no step (R107). -/
theorem apply_step_of_faulted {s : State} {f : Fault} (h : s.fault = some f) (c : Config) (r : Byte) :
    (HostEvent.step r).apply c s = s := by
  rw [apply_step_of_fault (stepWith_of_fault h c r), raise_of_fault h]

/-- Settles O6: with no fault and a PC inside memory the fetch succeeds, and a step is what it fetched. -/
theorem stepRunsTheDecodedInstruction : Obligations.StepRunsTheDecodedInstruction := by
  intro c r s
  refine ⟨step_eq_stepWith s, fun t => apply_step_of_next, fun hf hpc => ?_⟩
  exact ⟨step_of_fetch hf (fetch_ok hpc), stepWith_of_fetch hf (fetch_ok hpc) c r⟩

/-- Settles O7: the two ways in which a step ends before it runs anything. -/
theorem faultedOrLostMachineDoesNotStep : Obligations.FaultedOrLostMachineDoesNotStep := by
  refine ⟨fun s hf hpc => ?_, fun s f hf => ?_⟩
  · exact ⟨step_of_fetch_error hf (fetch_error hpc), stepWith_of_fetch_error hf (fetch_error hpc)⟩
  · exact ⟨step_of_fault hf, fun c r => ⟨stepWith_of_fault hf c r, apply_step_of_faulted hf c r⟩⟩

/-! ### What a step reads of its parameters -/

/-- Two runs of a step agree when the instruction that is fetched runs alike in both. -/
theorem stepWith_congr {c c' : Config} {r r' : Byte} {s : State}
    (h : ∀ i, fetch s = .ok i → execWith c r i s = execWith c' r' i s) : stepWith c r s = stepWith c' r' s := by
  cases hf : s.fault with
  | some f => rw [stepWith_of_fault hf, stepWith_of_fault hf]
  | none =>
    cases hi : fetch s with
    | error f => rw [stepWith_of_fetch_error hf hi, stepWith_of_fetch_error hf hi]
    | ok i => rw [stepWith_of_fetch hf hi, stepWith_of_fetch hf hi, h i hi]

/-- Only RND reads the random byte (R108). -/
theorem execWith_draw_congr {i : Instr} (hi : ∀ x kk, i ≠ .rnd x kk) (c : Config) (r r' : Byte) (s : State) :
    execWith c r i s = execWith c r' i s := by
  cases i
  case rnd x kk => exact absurd rfl (hi x kk)
  all_goals rfl

/-- Only LD F reads the configuration (R215). -/
theorem execWith_config_congr {i : Instr} (hi : ∀ x, i ≠ .ldF x) (c c' : Config) (r : Byte) (s : State) :
    execWith c r i s = execWith c' r i s := by
  cases i
  case ldF x => exact absurd rfl (hi x)
  all_goals rfl

/-- Settles O31: no other fetched instruction reads the random byte. -/
theorem onlyRndReadsTheDraw : Obligations.OnlyRndReadsTheDraw := by
  intro s r h
  have hdraw : ∀ (c : Config) r r', stepWith c r s = stepWith c r' s := fun c r r' =>
    stepWith_congr fun i hi => execWith_draw_congr (fun x kk he => h x kk (he ▸ hi)) c r r' s
  exact ⟨(hdraw config r s.draw).trans (step_eq_stepWith s).symm, fun c r' => hdraw c r' r⟩

/-- Settles O32: no other fetched instruction reads the configuration. -/
theorem onlyLdFReadsTheConfiguration : Obligations.OnlyLdFReadsTheConfiguration := fun s r c c' h =>
  stepWith_congr fun _ hi => execWith_config_congr (fun x he => h x (he ▸ hi)) c c' r s

/-! ### Which instruction can fault, and with what -/

/-- With I inside memory, the first row of a sprite that lies above it starts at 0x1000. -/
theorem firstRowAbove_eq {base r : Nat} (hbase : base ≤ 0xFFF) (hr : 0xFFF < base + r)
    (hq : ∀ q, q < r → base + q ≤ 0xFFF) : base + r = 0x1000 := by
  have hprev := hq (r - 1) (by omega)
  omega

/-- Every answer of an instruction: it completes, or it is one that checks an address or a key index and that check failed. The
address is the first one above memory if I lies inside (R240, R242). -/
theorem exec_answers (i : Instr) (s : State) :
    (∃ t, exec i s = .next t) ∨
    (checksData i = true ∧ ∃ a, 0xFFF < a ∧ (s.i.toNat ≤ 0xFFF → a = 0x1000) ∧ exec i s = .fault (.dataOutOfRange a)) ∨
    (∃ x, (i = .skp x ∨ i = .sknp x) ∧ 15 < (s.reg x).toNat ∧ exec i s = .fault (.keyIndexOutOfRange (s.reg x))) := by
  cases i
  case skp x =>
    rcases execSkp_cases x s with ⟨k, -, ho⟩ | ⟨hv, ho⟩
    · exact .inl ⟨_, ho⟩
    · exact .inr (.inr ⟨x, .inl rfl, hv, ho⟩)
  case sknp x =>
    rcases execSknp_cases x s with ⟨k, -, ho⟩ | ⟨hv, ho⟩
    · exact .inl ⟨_, ho⟩
    · exact .inr (.inr ⟨x, .inr rfl, hv, ho⟩)
  case drw x y n =>
    rcases execDrw_cases x y n s with ⟨-, ho⟩ | ⟨r, -, hr, hq, ho⟩
    · exact .inl ⟨_, ho⟩
    · exact .inr (.inl ⟨rfl, _, hr, fun hi => firstRowAbove_eq hi hr hq, ho⟩)
  case ldB x =>
    rcases execLdB_cases x s with ⟨-, ho⟩ | ⟨-, ho⟩
    · exact .inl ⟨_, ho⟩
    · exact .inr (.inl ⟨rfl, 0x1000, by decide, fun _ => rfl, ho⟩)
  case ldMemVx x =>
    rcases execLdMemVx_cases x s with ⟨-, ho⟩ | ⟨-, ho⟩
    · exact .inl ⟨_, ho⟩
    · exact .inr (.inl ⟨rfl, 0x1000, by decide, fun _ => rfl, ho⟩)
  case ldVxMem x =>
    rcases execLdVxMem_cases x s with ⟨-, ho⟩ | ⟨-, ho⟩
    · exact .inl ⟨_, ho⟩
    · exact .inr (.inl ⟨rfl, 0x1000, by decide, fun _ => rfl, ho⟩)
  case ldK x =>
    rcases execLdK_cases x s with ⟨-, ho⟩ | ⟨-, -, ho⟩ | ⟨-, k, -, ho⟩ <;> exact .inl ⟨_, ho⟩
  case cls => exact .inl ⟨_, execCls_next s⟩
  case ret => exact .inl ⟨_, execRet_next s⟩
  case call nnn => exact .inl ⟨_, execCall_next nnn s⟩
  all_goals exact .inl ⟨_, rfl⟩

/-- Settles O9: the answers, without what the address is. -/
theorem onlyCheckedAccessesFault : Obligations.OnlyCheckedAccessesFault := by
  intro i s
  rcases exec_answers i s with h | ⟨hc, a, ha, -, ho⟩ | h
  · exact .inl h
  · exact .inr (.inl ⟨hc, a, ha, ho⟩)
  · exact .inr (.inr h)

/-- Settles O10: of the answers only the failed address check is a DataOutOfRange. -/
theorem dataFaultsRecordTheFirstAddressAboveMemory : Obligations.DataFaultsRecordTheFirstAddressAboveMemory := by
  intro i s a hinv h
  obtain ⟨-, hi, -⟩ := hinv
  rcases exec_answers i s with ⟨t, ho⟩ | ⟨-, b, -, hb, ho⟩ | ⟨x, -, -, ho⟩
  · cases h.symm.trans ho
  · cases h.symm.trans ho
    exact hb hi
  · cases h.symm.trans ho

/-! ### A fault is precise and stays -/

/-- u is s stopped by the fault f: only K, DT and ST, which the host writes, may differ (R107, R241). -/
def StoppedBy (f : Fault) (s u : State) : Prop :=
  u.fault = some f ∧ u.mem = s.mem ∧ u.v = s.v ∧ u.i = s.i ∧ u.pc = s.pc ∧ u.sp = s.sp ∧ u.keysPrev = s.keysPrev ∧
    u.waiting = s.waiting ∧ u.draws = s.draws

/-- A transaction of the host does not restart a stopped machine. -/
theorem StoppedBy.apply {f : Fault} {s u : State} (h : StoppedBy f s u) (c : Config) (e : HostEvent) :
    StoppedBy f s (e.apply c u) := by
  cases e
  case step r =>
    rw [apply_step_of_faulted h.1]
    exact h
  all_goals exact h

/-- Settles O8: the fault is recorded by `raise`, and every later transaction keeps a stopped machine stopped. -/
theorem faultsArePreciseAndSticky : Obligations.FaultsArePreciseAndSticky := by
  intro c s r f es h faulted u
  have hfaulted : faulted = s.raise f := apply_step_of_fault h
  refine ⟨hfaulted, ?_⟩
  have hstart : StoppedBy f s faulted := by
    rw [hfaulted]
    exact ⟨rfl, rfl, rfl, rfl, rfl, rfl, rfl, rfl, rfl⟩
  exact foldl_keeps (P := StoppedBy f s) es faulted hstart fun e _ u hu => hu.apply c e

end Sys2Proof.Machine
end

section
/-! PROOFS. Construction, memory and the host: the reset state, MemRead and MemWrite, the loads before the first step, the
transactions from the first step on, and the invariant of every state that these reach. -/

namespace Sys2Proof.Machine

open Sys2Proof.Claims

/-! ### Construction -/

theorem State.reset_keysPrev (k : Key) : State.reset.keysPrev[k] = false := by simp [State.reset]

/-- Settles O1: the fields of reset, one by one (R40). -/
theorem resetStateIsTheConstructionState : Obligations.ResetStateIsTheConstructionState :=
  ⟨fun _ => rfl, State.reset_reg, rfl, rfl, rfl, rfl, rfl, State.reset_key, State.reset_keysPrev, rfl, rfl⟩

theorem reset_inv : State.reset.Inv := ⟨Memory.wf_nil, by decide, by decide⟩

/-- A machine that does not wait meets R109. -/
theorem waitsAtKeyWait_of_idle {s : State} (h : s.waiting = false) : s.WaitsAtKeyWait := fun hw => by
  cases h.symm.trans hw

/-- Settles O2: memory is empty, I and SP are 0, and reset does not wait. -/
theorem resetMeetsTheInvariant : Obligations.ResetMeetsTheInvariant := ⟨reset_inv, waitsAtKeyWait_of_idle rfl⟩

/-! ### MemRead and MemWrite -/

/-- Settles O53: both primitives answer by the one comparison with 0xFFF; below it the laws of the list say the rest. -/
theorem memoryPrimitivesActOnOneByte : Obligations.MemoryPrimitivesActOnOneByte := by
  refine ⟨fun m a b ha => ⟨memRead_error m ha, memWrite_error m ha b⟩, fun m a ha => memRead_ok m ha, fun m a b ha => ?_,
    fun m m' => Memory.eq_of_read⟩
  refine ⟨Memory.write m a b, memWrite_ok m ha b, ?_, fun c hc => ?_, fun hwf => Memory.wf_write hwf ha b⟩
  · rw [Memory.read_write, if_pos rfl]
  · rw [Memory.read_write, if_neg hc]

/-! ### The loads -/

/-- Byte k of a list that is written from a lands at a + k. -/
theorem read_writeBytes_inside (m : Memory) (a : Nat) (bs : List Byte) (k : Nat) (h : k < bs.length) :
    Memory.read (Memory.writeBytes m a bs) (a + k) = bs[k] := by
  have hin : a ≤ a + k ∧ a + k - a < bs.length := by omega
  rw [Memory.read_writeBytes, dif_pos hin]
  simp only [Nat.add_sub_cancel_left]

theorem read_writeBytes_outside (m : Memory) {a b : Nat} {bs : List Byte} (h : ¬(a ≤ b ∧ b < a + bs.length)) :
    Memory.read (Memory.writeBytes m a bs) b = Memory.read m b := by
  rw [Memory.read_writeBytes, dif_neg (by omega)]

/-- A write of memory alone keeps every other field. -/
theorem keepsSpecials_setMem (s : State) (m : Memory) : KeepsSpecials s (s.setMem m) :=
  ⟨⟨rfl, rfl⟩, ⟨rfl, rfl⟩, ⟨rfl, rfl, rfl⟩, rfl, rfl⟩

theorem loadImage_ok {image : List Byte} (h : image.length ≤ 0xCA0) (s : State) :
    loadImage image s = .next (s.setMem (Memory.writeBytes s.mem 0x200 image)) := by
  rw [loadImage, if_neg (by omega)]

theorem loadImage_refused {image : List Byte} (h : 0xCA0 < image.length) (s : State) :
    loadImage image s = .refused (.imageTooLong image.length) := by
  rw [loadImage, if_pos h]

theorem loadFont_ok {c : Config} {glyphs : List Byte} (hlen : glyphs.length = 80) (hbase : c.fontBase + 80 ≤ 0x200)
    (s : State) : loadFont c glyphs s = .next (s.setMem (Memory.writeBytes s.mem c.fontBase glyphs)) := by
  rw [loadFont, if_pos ⟨hlen, hbase⟩]

theorem loadFont_refused {c : Config} {glyphs : List Byte} (h : glyphs.length ≠ 80 ∨ 0x200 < c.fontBase + 80) (s : State) :
    loadFont c glyphs s = .refused (.fontMisplaced glyphs.length) := by
  rw [loadFont, if_neg (by omega)]

/-- Settles O54: the load is one write of the image's bytes from 0x200. -/
theorem loadPlacesTheImage : Obligations.LoadPlacesTheImage := by
  intro image s
  refine ⟨fun h => ?_, fun h => loadImage_refused h s⟩
  exact ⟨_, loadImage_ok h s, read_writeBytes_inside _ _ _, fun a ha => read_writeBytes_outside _ ha, rfl, fun _ => rfl,
    keepsSpecials_setMem _ _⟩

/-- Settles O55: the preload is one write of the font's bytes from FONT_BASE. -/
theorem fontPreloadPlacesTheGlyphs : Obligations.FontPreloadPlacesTheGlyphs := by
  intro c glyphs s
  refine ⟨fun hlen hbase => ?_, fun h => loadFont_refused h s⟩
  refine ⟨_, loadFont_ok hlen hbase s, read_writeBytes_inside _ _ _, fun a ha => ?_, rfl, fun _ => rfl,
    keepsSpecials_setMem _ _⟩
  exact read_writeBytes_outside _ (hlen.symm ▸ ha)

/-! ### The transactions that are no step -/

/-- One tick takes 1 from a timer above 0: subtraction of numbers (R250). -/
theorem countDown_toNat (b : Byte) : (countDown b).toNat = b.toNat - 1 := by
  by_cases h : b = 0
  · rw [countDown, if_pos h, h]
    rfl
  · have hpos : 1 ≤ b.toNat := Nat.one_le_iff_ne_zero.2 fun h0 => h (BitVec.eq_of_toNat_eq h0)
    rw [countDown, if_neg h]
    exact BitVec.toNat_sub_of_le (BitVec.le_def.2 hpos)

/-- Settles O56: each transaction is its own field writes. -/
theorem hostTransactionsTouchOnlyKeysAndTimers : Obligations.HostTransactionsTouchOnlyKeysAndTimers := by
  intro c s
  refine ⟨countDown_toNat s.dt, countDown_toNat s.st, rfl, fun k => ⟨rfl, rfl, rfl⟩, fun dt st => ⟨rfl, rfl, rfl⟩, rfl, ?_⟩
  intro e he
  cases e
  case step r => exact absurd rfl (he r)
  all_goals exact ⟨rfl, rfl, rfl, ⟨rfl, rfl⟩, rfl, rfl, rfl, rfl⟩

/-! ### The invariant of every transaction -/

/-- The state after a step transaction: the step's own, or the old one with at most its fault changed. -/
theorem apply_step_cases (c : Config) (r : Byte) (s : State) :
    (∃ t, stepWith c r s = .next t ∧ (HostEvent.step r).apply c s = t) ∨
    (∃ f, (HostEvent.step r).apply c s = s.raise f) ∨ (HostEvent.step r).apply c s = s := by
  cases h : stepWith c r s with
  | next t => exact .inl ⟨t, rfl, apply_step_of_next h⟩
  | fault f => exact .inr (.inl ⟨f, apply_step_of_fault h⟩)
  | refused q => exact .inr (.inr (by simp only [HostEvent.apply, h, afterStep]))

/-- R109 speaks of `waiting`, memory and the PC alone. -/
theorem waitsAtKeyWait_congr {s t : State} (hw : t.waiting = s.waiting) (hmem : t.mem = s.mem) (hpc : t.pc = s.pc)
    (h : s.WaitsAtKeyWait) : t.WaitsAtKeyWait := fun ht => by
  rw [fetch_congr hmem hpc]
  exact h (hw.symm.trans ht)

/-- Settles O4: a step keeps both invariants; the rest of what the host does writes no element that they speak of. -/
theorem everyTransactionKeepsTheInvariant : Obligations.EveryTransactionKeepsTheInvariant := by
  intro c e s hc
  cases e
  case step r =>
    rcases apply_step_cases c r s with ⟨t, h, ht⟩ | ⟨f, ht⟩ | ht
    · rw [ht]
      exact stepWith_keeps_invariants hc h
    · rw [ht]
      exact ⟨id, waitsAtKeyWait_congr rfl rfl rfl⟩
    · rw [ht]
      exact ⟨id, id⟩
  all_goals exact ⟨id, waitsAtKeyWait_congr rfl rfl rfl⟩

/-! ### The invariant of every reachable state -/

/-- A load that is not refused writes memory alone, and keeps its canonical form: it ends below 0x1000. -/
theorem bootAction_next {c : Config} {a : BootAction} {s t : State} (h : a.apply c s = .next t) :
    ∃ m, Rewrites s.mem m ∧ t = s.setMem m := by
  cases a
  case load image =>
    by_cases hlen : image.length ≤ 0xCA0
    · exact ⟨_, fun hwf => Memory.wf_writeBytes image hwf (by omega), eq_of_next_eq h (loadImage_ok hlen s)⟩
    · cases h.symm.trans (loadImage_refused (by omega) s)
  case font glyphs =>
    by_cases hfit : glyphs.length = 80 ∧ c.fontBase + 80 ≤ 0x200
    · obtain ⟨hlen, hbase⟩ := hfit
      exact ⟨_, fun hwf => Memory.wf_writeBytes glyphs hwf (by omega), eq_of_next_eq h (loadFont_ok hlen hbase s)⟩
    · cases h.symm.trans (loadFont_refused (by omega) s)

/-- Before the first step the machine meets the invariant and does not wait. -/
theorem Booted.inv_and_idle {c : Config} {s : State} (h : Booted c s) : s.Inv ∧ s.waiting = false := by
  induction h with
  | construct => exact ⟨reset_inv, rfl⟩
  | boot a _ ha ih =>
    obtain ⟨⟨hwf, hi, hsp⟩, hidle⟩ := ih
    obtain ⟨m, hm, rfl⟩ := bootAction_next ha
    exact ⟨⟨hm hwf, hi, hsp⟩, hidle⟩

/-- Settles O5: by induction on how the state is reached, from booted states by O4. -/
theorem reachableStatesMeetTheInvariant : Obligations.ReachableStatesMeetTheInvariant := by
  intro c s hc h
  induction h with
  | start hb =>
    obtain ⟨hinv, hidle⟩ := hb.inv_and_idle
    exact ⟨hinv, waitsAtKeyWait_of_idle hidle⟩
  | event e _ ih =>
    obtain ⟨hinv, hwait⟩ := ih
    obtain ⟨keepsInv, keepsWait⟩ := everyTransactionKeepsTheInvariant c e _ hc
    exact ⟨keepsInv hinv, keepsWait hwait⟩

end Sys2Proof.Machine
end

section
/-! PROOFS. XOR and the flag instructions of spec/42_alu.md. Each flag instruction is `writeFlagged`; what is left is that the
byte operations are the numbers the rules name. -/

namespace Sys2Proof.Machine

open Sys2Proof.Claims

/-! ### Byte arithmetic as numbers -/

/-- Byte subtraction is the difference modulo 256 (R161). -/
theorem byte_sub_eq_ofNat_mod (a b : Byte) : a - b = BitVec.ofNat 8 ((a.toNat + 256 - b.toNat) % 256) := by
  have hb := b.isLt
  apply BitVec.eq_of_toNat_eq
  simp only [BitVec.toNat_sub, BitVec.toNat_ofNat]
  omega

theorem byte_shiftRight_one (a : Byte) : a >>> 1 = BitVec.ofNat 8 (a.toNat / 2) := by
  have ha := a.isLt
  apply BitVec.eq_of_toNat_eq
  simp only [BitVec.toNat_ushiftRight, BitVec.toNat_ofNat, Nat.shiftRight_eq_div_pow]
  omega

theorem byte_shiftLeft_one (a : Byte) : a <<< 1 = BitVec.ofNat 8 (a.toNat * 2 % 256) := by
  apply BitVec.eq_of_toNat_eq
  simp only [BitVec.toNat_shiftLeft, BitVec.toNat_ofNat, Nat.shiftLeft_eq]
  omega

/-- Bit 0 is the remainder by 2 (R157). -/
theorem shiftRightFlag_eq (a : Byte) : shiftRightFlag a = decide (a.toNat % 2 = 1) := Nat.testBit_zero a.toNat

/-- Bit 7 is the parity of the quotient by 128 (R159). -/
theorem shiftLeftFlag_eq (a : Byte) : shiftLeftFlag a = decide (a.toNat / 128 % 2 = 1) := Nat.testBit_eq_decide_div_mod_eq

/-! ### The meanings -/

theorem writesFlagThenReg_writeFlagged (s : State) (x : Reg) (flag : Bool) (b : Byte) :
    WritesFlagThenReg (.next (s.writeFlagged x flag b)) s x flag b :=
  ⟨_, rfl, rfl, s.writeFlagged_reg x flag b, fun _ => rfl, ⟨rfl, rfl⟩, ⟨rfl, rfl⟩, ⟨rfl, rfl, rfl⟩, rfl, rfl⟩

theorem exec_xor (x y : Reg) (s : State) : exec (.xor x y) s = .next (s.setReg x (s.reg x ^^^ s.reg y)).advance := rfl

theorem exec_addReg (x y : Reg) (s : State) :
    exec (.addReg x y) s = .next (s.writeFlagged x (carryFlag (s.reg x) (s.reg y)) (s.reg x + s.reg y)) := rfl

theorem exec_sub (x y : Reg) (s : State) :
    exec (.sub x y) s = .next (s.writeFlagged x (notBorrowFlag (s.reg x) (s.reg y)) (s.reg x - s.reg y)) := rfl

theorem exec_subn (x y : Reg) (s : State) :
    exec (.subn x y) s = .next (s.writeFlagged x (notBorrowFlag (s.reg y) (s.reg x)) (s.reg y - s.reg x)) := rfl

theorem exec_shr (x : Reg) (s : State) :
    exec (.shr x) s = .next (s.writeFlagged x (shiftRightFlag (s.reg x)) (s.reg x >>> 1)) := rfl

theorem exec_shl (x : Reg) (s : State) :
    exec (.shl x) s = .next (s.writeFlagged x (shiftLeftFlag (s.reg x)) (s.reg x <<< 1)) := rfl

/-! ### The statements -/

/-- Settles O17: XOR is one register write. -/
theorem xorResult : Obligations.XorResult := by
  intro x y s
  rw [exec_xor]
  exact ⟨writesReg_setReg_advance s x (s.reg x ^^^ s.reg y), decodeWord_xor x y⟩

/-- Settles O18: the carry flag is the comparison that the rule names. -/
theorem addWritesCarryThenSum : Obligations.AddWritesCarryThenSum := by
  intro x y s
  rw [exec_addReg, ← byte_add_eq_ofNat_mod]
  exact ⟨writesFlagThenReg_writeFlagged s x (carryFlag (s.reg x) (s.reg y)) (s.reg x + s.reg y), decodeWord_addReg x y⟩

/-- Settles O19: SUB and SUBN are one subtraction with the operands exchanged. -/
theorem subtractionsWriteNotBorrowThenDifference : Obligations.SubtractionsWriteNotBorrowThenDifference := by
  intro x y s
  rw [exec_sub, exec_subn, ← byte_sub_eq_ofNat_mod, ← byte_sub_eq_ofNat_mod]
  exact ⟨writesFlagThenReg_writeFlagged s x (notBorrowFlag (s.reg x) (s.reg y)) (s.reg x - s.reg y),
    writesFlagThenReg_writeFlagged s x (notBorrowFlag (s.reg y) (s.reg x)) (s.reg y - s.reg x),
    decodeWord_sub x y, decodeWord_subn x y⟩

/-- Settles O20: the flags are the lowest and the highest bit of V[x]. -/
theorem shiftsWriteTheBitShiftedOut : Obligations.ShiftsWriteTheBitShiftedOut := by
  intro x s
  rw [exec_shr, exec_shl, ← byte_shiftRight_one, ← byte_shiftLeft_one, ← shiftRightFlag_eq, ← shiftLeftFlag_eq]
  exact ⟨writesFlagThenReg_writeFlagged s x _ _, writesFlagThenReg_writeFlagged s x _ _,
    fun y => ⟨decodeWord_shr x y, decodeWord_shl x y⟩⟩

end Sys2Proof.Machine
end

section
/-! PROOFS. The class-level operations of spec/41_base_ops.md that were left: CLS, the stack, JP V0, RND, the hooks and the
self-jump. -/

namespace Sys2Proof.Machine

open Sys2Proof.Claims

/-! ### CLS -/

/-- A write of memory and the move to the next word keep everything else. -/
theorem keepsSpecials_setMem_advance (s : State) (m : Memory) : KeepsSpecials s (s.setMem m).advance :=
  ⟨⟨rfl, rfl⟩, ⟨rfl, rfl⟩, ⟨rfl, rfl, rfl⟩, rfl, rfl⟩

/-- Settles O21: what CLS leaves at an address is the law of clearScreen. -/
theorem clsZeroesExactlyTheFramebuffer : Obligations.ClsZeroesExactlyTheFramebuffer := by
  refine ⟨fun s => ?_, decodeWord_cls⟩
  refine ⟨_, (exec_cls s).trans (execCls_next s), rfl, fun a hlow hhigh => ?_, fun a ha => ?_, fun _ => rfl,
    keepsSpecials_setMem_advance _ _⟩
  · exact (read_clear s.mem a).trans (if_pos ⟨hlow, hhigh⟩)
  · exact (read_clear s.mem a).trans (if_neg ha)

/-! ### JP V0 -/

theorem exec_jpV0 (nnn : Addr) (s : State) :
    exec (.jpV0 nnn) s = .next (s.setPc (zextByte (s.reg 0) + zextAddr nnn)) := rfl

/-- The sum of a byte and an address is the 16-bit word of the sum: it is not reduced to 12 bits (R134). -/
theorem zextByte_add_zextAddr (b : Byte) (nnn : Addr) :
    zextByte b + zextAddr nnn = BitVec.ofNat 16 (b.toNat + nnn.toNat) := by
  apply BitVec.eq_of_toNat_eq
  rw [BitVec.toNat_add, BitVec.toNat_ofNat, zextByte_toNat, zextAddr_toNat]

/-- Settles O23: JP V0 is one write of the PC. -/
theorem jpV0AddsWithoutReduction : Obligations.JpV0AddsWithoutReduction := by
  intro nnn s
  rw [exec_jpV0, zextByte_add_zextAddr]
  exact onlyMovesPc_setPc s _

/-! ### The stack -/

/-- A stack slot after CALL: the return address, high byte first, and every other byte as it was (R27, R122). -/
theorem read_push (m : Memory) (slot : Nat) (hi lo : Byte) (a : Nat) :
    Memory.read (Memory.write (Memory.write m slot hi) (slot + 1) lo) a =
      if a = slot + 1 then lo else if a = slot then hi else Memory.read m a := by
  simp only [Memory.read_write]

/-- Settles O24: CALL writes the slot at the old SP, SP and the PC. -/
theorem callPushesTheReturnAddress : Obligations.CallPushesTheReturnAddress := by
  intro nnn s
  refine ⟨_, (exec_call nnn s).trans (execCall_next nnn s), zextAddr_eq_ofNat nnn, byte_add_eq_ofNat_mod s.sp 2, ?_, ?_,
    fun a ha => ?_, fun _ => rfl, rfl, ⟨rfl, rfl⟩, ⟨rfl, rfl, rfl⟩, rfl, rfl⟩
  · rw [← hiByte_eq_ofNat]
    exact (read_push _ _ _ _ _).trans (by simp [stackSlot])
  · rw [← loByte_eq_ofNat]
    exact (read_push _ _ _ _ _).trans (if_pos rfl)
  · obtain ⟨hhi, hlo⟩ := not_or.1 ha
    exact (read_push _ _ _ _ _).trans ((if_neg hlo).trans (if_neg hhi))

/-- Settles O25: RET reads the slot at the new SP and writes SP and the PC. -/
theorem retPopsTheReturnAddress : Obligations.RetPopsTheReturnAddress := by
  intro s
  exact ⟨_, (exec_ret s).trans (execRet_next s), sp_sub_two_toNat s.sp, pair_toNat _ _, fun _ => rfl, fun _ => rfl, rfl,
    ⟨rfl, rfl⟩, ⟨rfl, rfl, rfl⟩, rfl, rfl⟩

/-- Settles O26: RET comes back to the slot that CALL wrote, and the two bytes there make up the return address. -/
theorem callThenRetReturns : Obligations.CallThenRetReturns := by
  intro nnn s t u hcall hsp hhi hlo
  obtain rfl := eq_of_next_eq hcall (execCall_next nnn s)
  have hback : u.sp - 2 = s.sp := by
    rw [hsp, State.setPc_sp, State.setSp_sp, BitVec.add_sub_cancel]
  refine ⟨_, (exec_ret u).trans (execRet_next u), ?_, hback⟩
  have hhi' : Memory.read u.mem (stackSlot s.sp) = hiByte (s.pc + 2) :=
    hhi.trans ((read_push _ _ _ _ _).trans (by simp [stackSlot]))
  have hlo' : Memory.read u.mem (stackSlot s.sp + 1) = loByte (s.pc + 2) :=
    hlo.trans ((read_push _ _ _ _ _).trans (if_pos rfl))
  rw [State.setPc_pc, hback, hhi', hlo', pair_hiByte_loByte]

/-! ### RND -/

theorem rndWith_next (r : Byte) (x : Reg) (kk : Byte) (s : State) :
    rndWith r x kk s = .next (s.setReg x (r &&& kk)).nextDraw.advance := rfl

/-- Settles O30: RND is the register write of the masked byte, and exec's RND is that with the step's free value. -/
theorem rndMasksTheDraw : Obligations.RndMasksTheDraw := by
  intro x kk s
  refine ⟨fun c r => ?_, ⟨s.draw, _, exec_eq_execWith (.rnd x kk) s, rndWith_next s.draw x kk s⟩, decodeWord_rnd x kk⟩
  exact ⟨_, rndWith_next r x kk s, rfl, State.setReg_reg s x (r &&& kk), fun _ => rfl, ⟨rfl, rfl⟩, ⟨rfl, rfl⟩,
    ⟨rfl, rfl, rfl⟩, rfl⟩

/-! ### The hooks -/

theorem onlyMovesPc_hook (s : State) : OnlyMovesPc (hook s) s (s.pc + 2) := onlyMovesPc_setPc s (s.pc + 2)

/-- Settles O33: each of the four is `hook`. -/
theorem hooksOnlyAdvanceThePc : Obligations.HooksOnlyAdvanceThePc := fun _ s =>
  ⟨onlyMovesPc_hook s, onlyMovesPc_hook s, onlyMovesPc_hook s, onlyMovesPc_hook s⟩

/-! ### The self-jump -/

theorem run_succ_of_step {M : Host.Core} {s t : M.State} (h : M.step s = .next t) (k : Nat) :
    M.run (k + 1) s = M.run k t := by
  rw [Host.Core.run, h]

/-- A step that leaves the state leaves it for ever. -/
theorem run_of_step_self {s : State} (h : step s = .next s) (k : Nat) : Host.Core.run core k s = .next s := by
  induction k with
  | zero => rfl
  | succ k ih => exact (run_succ_of_step (M := core) h k).trans ih

/-- Settles O34: the jump writes the PC that is there. -/
theorem selfJumpIdlesForEver : Obligations.SelfJumpIdlesForEver := by
  intro nnn s k hf hpc hi
  refine run_of_step_self ?_ k
  rw [step_of_fetch hf hi, exec_jp, zextAddr_eq_ofNat, ← hpc, State.setPc_self]

end Sys2Proof.Machine
end

section
/-! PROOFS. The sprite draw of spec/43_draw.md. The rows of `drawn` are the memories of the rule; the byte-level form draws the
same rows; and where no sprite byte is drawn over, a draw toggles each covered pixel once, so that a second equal draw undoes
the first. -/

namespace Sys2Proof.Machine

open Sys2Proof.Claims

/-! ### One draw -/

theorem execDrw_next {x y : Reg} {n : Fin 16} {s : State} (h : ∀ r, r < n.val → s.i.toNat + r ≤ 0xFFF) :
    execDrw x y n s = .next ((s.setMem (drawn x y n s).1).setFlag (drawn x y n s).2).advance := by
  rcases execDrw_cases x y n s with ⟨-, ho⟩ | ⟨r, hr, habove, -, -⟩
  · exact ho
  · have := h r hr
    omega

/-- Row r of a draw, on the memory that the rows before it have left (R172, D11). -/
theorem rowDrawn_drawn (x y : Reg) (r : Nat) (s : State) :
    RowDrawn (drawn x y r s).1 (drawn x y (r + 1) s).1 (s.i.toNat + r) (s.reg x).toNat ((s.reg y).toNat + r) := by
  rw [drawn_succ]
  exact (plotRow_spec _ _ _ _ _).1

theorem keepsSpecials_draw (s : State) (m : Memory) (flag : Bool) :
    KeepsSpecials s ((s.setMem m).setFlag flag).advance :=
  ⟨⟨rfl, rfl⟩, ⟨rfl, rfl⟩, ⟨rfl, rfl, rfl⟩, rfl, rfl⟩

/-- The registers after a draw: the flag in V[15], the rest as they were (R173). -/
theorem reg_draw (s : State) (m : Memory) (flag : Bool) (r : Reg) :
    (((s.setMem m).setFlag flag).advance).reg r = if r = flagReg then (if flag then 1 else 0) else s.reg r := by
  rw [State.advance_reg, State.setFlag_reg, State.setMem_reg]

/-- A flag that is computed from a condition holds 1 where the condition does and 0 elsewhere. -/
theorem flag_of_iff {v : Byte} {flag : Bool} {p : Prop} (hv : v = if flag then 1 else 0) (h : flag = true ↔ p) :
    (v = 1 ∧ p) ∨ (v = 0 ∧ ¬p) := by
  by_cases hp : p
  · exact .inl ⟨hv.trans (if_pos (h.2 hp)), hp⟩
  · exact .inr ⟨hv.trans (if_neg (mt h.1 hp)), hp⟩

/-- Settles O35: the memories of the rule are those that the first r rows leave. -/
theorem drwDrawsRowAfterRow : Obligations.DrwDrawsRowAfterRow := by
  intro x y n s h
  refine ⟨_, fun r => (drawn x y r s).1, (exec_drw x y n s).trans (execDrw_next h), rfl, rfl,
    fun r _ => rowDrawn_drawn x y r s, ?_, rfl, fun r hr => ?_, keepsSpecials_draw _ _ _⟩
  · exact flag_of_iff ((reg_draw _ _ _ _).trans (if_pos eq_flagReg)) (drawn_collision x y n s)
  · exact (reg_draw _ _ _ _).trans (if_neg hr)

/-- Settles O36: the check comes before the loop and names the first row above memory. -/
theorem drwOutOfMemoryFaults : Obligations.DrwOutOfMemoryFaults := by
  intro x y n s r hr habove hfirst
  rw [exec_drw, execDrw, drawWith, checkSprite_error hr habove hfirst, bind_error, settle_error]

/-- Settles O37: no row is drawn and none is checked. -/
theorem drwOfNoRowsClearsTheFlag : Obligations.DrwOfNoRowsClearsTheFlag := by
  intro x y s
  refine ⟨_, (exec_drw x y 0 s).trans (execDrw_next fun r hr => absurd hr (Nat.not_lt_zero r)), rfl,
    fun r => reg_draw s _ _ r, fun _ => rfl, keepsSpecials_draw _ _ _⟩

/-! ### The byte-level form -/

/-- On canonical memory a row by pixels and a row by bytes leave the same memory and the same collision: both are the row of
the rule. -/
theorem plotRow_eq_mergeRow (base ox oy : Nat) {acc : DrawAcc} (r : Nat) (hwf : Memory.wf acc.1 = true) :
    plotRow base ox oy acc r = mergeRow base ox oy acc r := by
  obtain ⟨hrow, hflag, hkeeps⟩ := plotRow_spec base ox oy acc r
  obtain ⟨hrow', hflag', hkeeps'⟩ := mergeRow_spec base ox oy acc r
  exact Prod.ext (RowDrawn.unique hrow hrow' (hkeeps hwf) (hkeeps' hwf)) (Bool.eq_iff_iff.2 (hflag.trans hflag'.symm))

theorem plotRow_wf (base ox oy : Nat) {acc : DrawAcc} (r : Nat) (hwf : Memory.wf acc.1 = true) :
    Memory.wf (plotRow base ox oy acc r).1 = true := by
  obtain ⟨-, -, hkeeps⟩ := plotRow_spec base ox oy acc r
  exact hkeeps hwf

theorem foldl_plotRow_eq_foldl_mergeRow (base ox oy : Nat) (rows : List Nat) {acc : DrawAcc} (hwf : Memory.wf acc.1 = true) :
    rows.foldl (plotRow base ox oy) acc = rows.foldl (mergeRow base ox oy) acc := by
  induction rows generalizing acc with
  | nil => rfl
  | cons r rows ih =>
    rw [List.foldl_cons, List.foldl_cons, ← plotRow_eq_mergeRow base ox oy r hwf]
    exact ih (plotRow_wf base ox oy r hwf)

/-- Settles O38: both forms check the sprite alike; when it lies in memory neither faults and they draw the same rows. -/
theorem drwEqualsItsByteLevelForm : Obligations.DrwEqualsItsByteLevelForm := by
  intro x y n s hwf
  rw [exec_drw, execDrw, drwByBytes, drawWith, drawWith]
  rcases checkSprite_cases s.i.toNat n.val with ⟨hok, hin⟩ | ⟨r, -, -, -, hfault⟩
  · rw [hok, bind_ok, bind_ok, drawRows_ok hin, drawRowsBytes_ok hin, foldl_plotRow_eq_foldl_mergeRow _ _ _ _ hwf]
  · rw [hfault, bind_error, bind_error]

/-! ### Two equal draws -/

/-- Row r of the sprite, as memory holds it before the draw, covers the pixel. -/
abbrev RowCovers (x y : Reg) (s : State) (r px py : Nat) : Prop :=
  Covers (Memory.read s.mem (s.i.toNat + r)) (s.reg x).toNat ((s.reg y).toNat + r) px py

/-- No covered pixel lies in a byte of the sprite: the premise of R176. -/
def SpriteApart (x y : Reg) (n : Nat) (s : State) : Prop :=
  ∀ q r px py, q < n → r < n → RowCovers x y s r px py → pixelAddr px py ≠ s.i.toNat + q

/-- A row leaves a byte as it is when it covers none of the byte's pixels. -/
theorem read_of_rowDrawn {m m' : Memory} {a ox oy b : Nat} (h : RowDrawn m m' a ox oy)
    (hb : ∀ px py, Covers (Memory.read m a) ox oy px py → pixelAddr px py ≠ b) : Memory.read m' b = Memory.read m b := by
  obtain ⟨-, hkept, houtside⟩ := h
  by_cases hout : b < 0xF00 ∨ 0xFFF < b
  · exact houtside b hout
  · refine BitVec.eq_of_getLsbD_eq fun j hj => ?_
    obtain ⟨px, py, hx, hy, hpb, rfl⟩ := exists_pixel (a := b) (by omega) (by omega) hj
    rw [← hpb]
    exact hkept px py hx hy fun hc => hb px py hc hpb

/-- Every row of the draw reads the sprite byte that memory held at first. -/
theorem read_sprite_drawn {x y : Reg} {n : Nat} {s : State} (h : SpriteApart x y n s) {k q : Nat} (hk : k ≤ n) (hq : q < n) :
    Memory.read (drawn x y k s).1 (s.i.toNat + q) = Memory.read s.mem (s.i.toNat + q) := by
  induction k generalizing q with
  | zero => rfl
  | succ k ih =>
    rw [← ih (by omega) hq]
    refine read_of_rowDrawn (rowDrawn_drawn x y k s) fun px py hc => ?_
    rw [ih (by omega) (by omega)] at hc
    exact h q k px py hq (by omega) hc

/-- Two rows less than 32 apart cover no pixel in common. -/
theorem Covers.row_inj {b b' : Byte} {ox oy r r' px py : Nat} (h : Covers b ox (oy + r) px py)
    (h' : Covers b' ox (oy + r') px py) (hr : r < 32) (hr' : r' < 32) : r = r' := by
  obtain ⟨hpy, -⟩ := h
  obtain ⟨hpy', -⟩ := h'
  omega

/-- The display after k rows: the pixels that these rows cover are toggled, once each. -/
theorem lit_drawn {x y : Reg} {n : Nat} (hn : n ≤ 32) {s : State} (h : SpriteApart x y n s) {k : Nat} (hk : k ≤ n)
    {px py : Nat} (hx : px < 64) (hy : py < 32) :
    lit (drawn x y k s).1 px py = (lit s.mem px py ^^ decide (∃ r, r < k ∧ RowCovers x y s r px py)) := by
  induction k with
  | zero => simp [drawn_zero]
  | succ k ih =>
    obtain ⟨htoggled, hkept, -⟩ := rowDrawn_drawn x y k s
    rw [read_sprite_drawn h (by omega) (by omega)] at htoggled hkept
    by_cases hc : RowCovers x y s k px py
    · have hbefore : ¬∃ r, r < k ∧ RowCovers x y s r px py := fun ⟨r, hr, hcr⟩ => by
        have := Covers.row_inj hcr hc (by omega) (by omega)
        omega
      have hafter : ∃ r, r < k + 1 ∧ RowCovers x y s r px py := ⟨k, by omega, hc⟩
      rw [htoggled px py hx hy hc, ih (by omega), decide_eq_false hbefore, decide_eq_true hafter, Bool.xor_false, Bool.xor_true]
    · have hsame : (∃ r, r < k ∧ RowCovers x y s r px py) ↔ ∃ r, r < k + 1 ∧ RowCovers x y s r px py := by
        refine ⟨fun ⟨r, hr, hcr⟩ => ⟨r, by omega, hcr⟩, fun ⟨r, hr, hcr⟩ => ⟨r, ?_, hcr⟩⟩
        have hne : r ≠ k := fun he => hc (he ▸ hcr)
        omega
      rw [hkept px py hx hy hc, ih (by omega), decide_eq_decide.2 hsame]

/-- A pixel that row r covers is as it was until row r is drawn. -/
theorem lit_drawn_before {x y : Reg} {n : Nat} (hn : n ≤ 32) {s : State} (h : SpriteApart x y n s) {r px py : Nat}
    (hr : r < n) (hx : px < 64) (hy : py < 32) (hc : RowCovers x y s r px py) :
    lit (drawn x y r s).1 px py = lit s.mem px py := by
  have hbefore : ¬∃ q, q < r ∧ RowCovers x y s q px py := fun ⟨q, hq, hcq⟩ => by
    have := Covers.row_inj hcq hc (by omega) (by omega)
    omega
  rw [lit_drawn hn h (by omega) hx hy, decide_eq_false hbefore, Bool.xor_false]

/-- A pixel that some row covers is toggled by the draw. -/
theorem lit_drawn_covered {x y : Reg} {n : Nat} (hn : n ≤ 32) {s : State} (h : SpriteApart x y n s) {r px py : Nat}
    (hr : r < n) (hx : px < 64) (hy : py < 32) (hc : RowCovers x y s r px py) :
    lit (drawn x y n s).1 px py = !lit s.mem px py := by
  rw [lit_drawn hn h (Nat.le_refl n) hx hy, decide_eq_true ⟨r, hr, hc⟩, Bool.xor_true]

/-- A draw writes the framebuffer alone. -/
theorem read_drawn_outside (x y : Reg) (n : Nat) (s : State) {b : Nat} (hb : b < 0xF00 ∨ 0xFFF < b) :
    Memory.read (drawn x y n s).1 b = Memory.read s.mem b := by
  induction n with
  | zero => rfl
  | succ n ih =>
    obtain ⟨-, -, houtside⟩ := rowDrawn_drawn x y n s
    exact (houtside b hb).trans ih

/-- t is s after a draw that left the operands of the draw as they were. -/
structure AfterDraw (x y : Reg) (n : Nat) (s t : State) : Prop where
  mem : t.mem = (drawn x y n s).1
  i : t.i = s.i
  regX : t.reg x = s.reg x
  regY : t.reg y = s.reg y

section
variable {x y : Reg} {n : Nat} {s t : State}

theorem AfterDraw.rowCovers_iff (ht : AfterDraw x y n s t) (h : SpriteApart x y n s) {r px py : Nat} (hr : r < n) :
    RowCovers x y t r px py ↔ RowCovers x y s r px py := by
  rw [RowCovers, RowCovers, ht.mem, ht.i, ht.regX, ht.regY, read_sprite_drawn h (Nat.le_refl n) hr]

theorem AfterDraw.spriteApart (ht : AfterDraw x y n s t) (h : SpriteApart x y n s) : SpriteApart x y n t := by
  intro q r px py hq hr hc
  rw [ht.i]
  exact h q r px py hq hr ((ht.rowCovers_iff h hr).1 hc)

/-- The second draw toggles back what the first toggled. -/
theorem AfterDraw.drawn_eq (ht : AfterDraw x y n s t) (hn : n ≤ 32) (h : SpriteApart x y n s) (hwf : Memory.wf s.mem = true) :
    (drawn x y n t).1 = s.mem := by
  have hwft : Memory.wf t.mem = true := ht.mem ▸ drawn_wf x y n hwf
  refine Memory.eq_of_lit (drawn_wf x y n hwft) hwf (fun px py hx hy => ?_) fun b hb => ?_
  · have hsame : (∃ r, r < n ∧ RowCovers x y t r px py) ↔ ∃ r, r < n ∧ RowCovers x y s r px py :=
      exists_congr fun r => and_congr_right fun hr => ht.rowCovers_iff h hr
    rw [lit_drawn hn (ht.spriteApart h) (Nat.le_refl n) hx hy, decide_eq_decide.2 hsame, ht.mem,
      lit_drawn hn h (Nat.le_refl n) hx hy, Bool.xor_assoc, Bool.xor_self, Bool.xor_false]
  · rw [read_drawn_outside x y n t hb, ht.mem, read_drawn_outside x y n s hb]

/-- The second draw meets exactly the pixels that the first has lit. -/
theorem AfterDraw.collision_iff (ht : AfterDraw x y n s t) (hn : n ≤ 32) (h : SpriteApart x y n s) :
    (drawn x y n t).2 = true ↔
      ∃ r px py, r < n ∧ px < 64 ∧ py < 32 ∧ lit s.mem px py = false ∧ RowCovers x y s r px py := by
  have hmet : ∀ r px py, r < n → px < 64 → py < 32 → RowCovers x y s r px py →
      (lit (drawn x y r t).1 px py = true ↔ lit s.mem px py = false) := by
    intro r px py hr hx hy hc
    rw [lit_drawn_before hn (ht.spriteApart h) hr hx hy ((ht.rowCovers_iff h hr).2 hc), ht.mem,
      lit_drawn_covered hn h hr hx hy hc, Bool.not_eq_true']
  have hcovers : ∀ r px py, r < n → (Covers (Memory.read (drawn x y r t).1 (t.i.toNat + r)) (t.reg x).toNat
      ((t.reg y).toNat + r) px py ↔ RowCovers x y s r px py) := by
    intro r px py hr
    rw [read_sprite_drawn (ht.spriteApart h) (by omega) hr]
    exact ht.rowCovers_iff h hr
  rw [drawn_collision]
  constructor
  · rintro ⟨r, px, py, hr, hx, hy, hl, hc⟩
    have hc' := (hcovers r px py hr).1 hc
    exact ⟨r, px, py, hr, hx, hy, (hmet r px py hr hx hy hc').1 hl, hc'⟩
  · rintro ⟨r, px, py, hr, hx, hy, hl, hc⟩
    exact ⟨r, px, py, hr, hx, hy, (hmet r px py hr hx hy hc).2 hl, (hcovers r px py hr).2 hc⟩

end

/-- A draw whose x and y are not 15 leaves its own operands. -/
theorem afterDraw_of_next {x y : Reg} {n : Fin 16} {s t : State} (hx : x ≠ 15) (hy : y ≠ 15)
    (h : exec (.drw x y n) s = .next t) : (∀ r, r < n.val → s.i.toNat + r ≤ 0xFFF) ∧ AfterDraw x y n.val s t := by
  rw [exec_drw] at h
  rcases execDrw_cases x y n s with ⟨hin, ho⟩ | ⟨r, -, -, -, ho⟩
  · obtain rfl := eq_of_next_eq h ho
    exact ⟨hin, rfl, rfl, (reg_draw _ _ _ x).trans (if_neg hx), (reg_draw _ _ _ y).trans (if_neg hy)⟩
  · cases h.symm.trans ho

/-- Settles O39: the operands and the sprite are those of the first draw, so the second toggles the same pixels. -/
theorem drwTwiceRestoresTheScreen : Obligations.DrwTwiceRestoresTheScreen := by
  intro x y n s t hx hy hwf hapart h
  obtain ⟨hin, ht⟩ := afterDraw_of_next hx hy h
  have hn : n.val ≤ 32 := by omega
  have hint : ∀ r, r < n.val → t.i.toNat + r ≤ 0xFFF := ht.i ▸ hin
  refine ⟨_, (exec_drw x y n t).trans (execDrw_next hint), ht.drawn_eq hn hapart hwf, ?_⟩
  exact flag_of_iff ((reg_draw _ _ _ _).trans (if_pos eq_flagReg)) (ht.collision_iff hn hapart)

end Sys2Proof.Machine
end

section
/-! PROOFS. The keys of spec/44_keys.md and the transfers of spec/45_transfer.md that were left: the key skips, the end of the
key wait, LD F, LD B and the register transfers. -/

namespace Sys2Proof.Machine

open Sys2Proof.Claims

/-! ### The key skips -/

theorem execSkp_ok {x : Reg} {s : State} {k : Key} (h : (s.reg x).toNat = k.val) :
    execSkp x s = .next (s.skipIf (s.key k)) := by
  rw [execSkp, keyIndex_ok h, bind_ok, settle_pure]

theorem execSknp_ok {x : Reg} {s : State} {k : Key} (h : (s.reg x).toNat = k.val) :
    execSknp x s = .next (s.skipIf (!s.key k)) := by
  rw [execSknp, keyIndex_ok h, bind_ok, settle_pure]

theorem execSkp_fault {x : Reg} {s : State} (h : 15 < (s.reg x).toNat) :
    execSkp x s = .fault (.keyIndexOutOfRange (s.reg x)) := by
  rw [execSkp, keyIndex_error h, bind_error, settle_error]

theorem execSknp_fault {x : Reg} {s : State} (h : 15 < (s.reg x).toNat) :
    execSknp x s = .fault (.keyIndexOutOfRange (s.reg x)) := by
  rw [execSknp, keyIndex_error h, bind_error, settle_error]

/-- Settles O40: SKP is skipIf on the key's state and SKNP on its negation, once the index names a key. -/
theorem keySkipsFollowTheKey : Obligations.KeySkipsFollowTheKey := by
  intro x s
  rw [exec_skp, exec_sknp]
  refine ⟨fun k hk => ⟨?_, ?_⟩, fun h => ⟨execSkp_fault h, execSknp_fault h⟩⟩
  · rw [execSkp_ok hk]
    exact onlyMovesPc_skipIf s Iff.rfl
  · rw [execSknp_ok hk, ← ite_not]
    exact onlyMovesPc_skipIf s (by rw [Bool.not_eq_true', Bool.not_eq_true])

/-! ### The key wait -/

/-- While waiting, a changed key ends the wait (R194). -/
theorem execLdK_of_changed (x : Reg) {s : State} {k : Key} (hw : s.waiting = true)
    (hk : firstChangedKey s.keys s.keysPrev = some k) : execLdK x s = .next (s.leaveWait x k) := by
  simp only [execLdK, hw, if_true, hk]

/-- While waiting, nothing happens without a changed key (R194). -/
theorem execLdK_of_unchanged (x : Reg) {s : State} (hw : s.waiting = true)
    (hk : firstChangedKey s.keys s.keysPrev = none) : execLdK x s = .next s := by
  simp only [execLdK, hw, if_true, hk]

theorem State.leaveWait_reg (s : State) (x : Reg) (k : Key) (r : Reg) :
    (s.leaveWait x k).reg r = if r = x then BitVec.ofNat 8 k.val else s.reg r := by
  rw [State.leaveWait, State.advance_reg, State.setWaiting_reg, State.setReg_reg]

/-- Settles O42: the first changed key is the lowest one that differs from the snapshot. -/
theorem keyWaitReportsTheLowestChangedKey : Obligations.KeyWaitReportsTheLowestChangedKey := by
  intro x s k hw hk hlow
  have hnext := (exec_ldK x s).trans (execLdK_of_changed x hw (firstChangedKey_eq_some hk hlow))
  exact ⟨_, hnext, rfl, rfl, s.leaveWait_reg x k, rfl, rfl, fun _ => rfl, ⟨rfl, rfl⟩, ⟨rfl, rfl⟩, rfl, rfl⟩

/-- Settles O43: with K equal to the snapshot one step leaves the state, so any number does. -/
theorem keyWaitLastsWithoutAChange : Obligations.KeyWaitLastsWithoutAChange := by
  intro x s n hf hw hi hk
  refine run_of_step_self ?_ n
  rw [step_of_fetch hf hi, exec_ldK, execLdK_of_unchanged x hw (firstChangedKey_eq_none.2 hk)]

/-! ### LD F -/

theorem ldFWith_glyph {c : Config} (h : c.ldfPolicy = .glyph) (x : Reg) (s : State) :
    ldFWith c x s = .next (s.setI (glyphAddress c (s.reg x))).advance := by
  simp only [ldFWith, h]

theorem ldFWith_noop {c : Config} (h : c.ldfPolicy = .noop) (x : Reg) (s : State) : ldFWith c x s = .next s.advance := by
  simp only [ldFWith, h]

/-- Settles O46: each policy is its branch of ldFWith; exec runs the default's, glyph at 0x000. -/
theorem ldFFollowsTheConfiguration : Obligations.LdFFollowsTheConfiguration := by
  refine ⟨fun c x s hc hp => ?_, fun c x s hp => ?_, fun _ _ _ _ => rfl, fun x s => ?_⟩
  · exact ⟨_, ldFWith_glyph hp x s, rfl, glyphAddress_toNat hc (s.reg x), fun _ => rfl, fun _ => rfl, rfl, ⟨rfl, rfl⟩,
      ⟨rfl, rfl, rfl⟩, rfl, rfl⟩
  · rw [ldFWith_noop hp]
    exact onlyMovesPc_setPc s (s.pc + 2)
  · have hi := glyphAddress_toNat (c := config) (by decide) (s.reg x)
    exact ⟨_, (exec_ldF x s).trans (ldFWith_glyph rfl x s), exec_ldF x s, hi.trans (Nat.zero_add _)⟩

/-! ### LD B -/

theorem hundreds_toNat (a : Byte) : (hundreds a).toNat = a.toNat / 100 := by
  have ha := a.isLt
  rw [hundreds, BitVec.toNat_ofNat]
  omega

theorem tens_toNat (a : Byte) : (tens a).toNat = a.toNat / 10 % 10 := by
  rw [tens, BitVec.toNat_ofNat]
  omega

theorem ones_toNat (a : Byte) : (ones a).toNat = a.toNat % 10 := by
  rw [ones, BitVec.toNat_ofNat]
  omega

/-- Three bytes written from a up. -/
theorem read_writeThree (m : Memory) (a : Nat) (u v w : Byte) (b : Nat) :
    Memory.read (Memory.write (Memory.write (Memory.write m a u) (a + 1) v) (a + 2) w) b =
      if b = a + 2 then w else if b = a + 1 then v else if b = a then u else Memory.read m b := by
  simp only [Memory.read_write]

/-- Settles O47: the span check decides between the three writes and the fault. -/
theorem ldBStoresDecimalDigits : Obligations.LdBStoresDecimalDigits := by
  intro x s
  rw [exec_ldB]
  refine ⟨fun h => ?_, fun h => ?_, decodeWord_ldB x⟩
  · rcases execLdB_cases x s with ⟨-, ho⟩ | ⟨habove, -⟩
    · have hread := read_writeThree s.mem s.i.toNat (hundreds (s.reg x)) (tens (s.reg x)) (ones (s.reg x))
      refine ⟨_, ho, rfl, ?_, ?_, ?_, fun a ha => ?_, fun _ => rfl, keepsSpecials_setMem_advance _ _⟩
      · rw [← hundreds_toNat]
        exact congrArg BitVec.toNat ((hread _).trans (by simp))
      · rw [← tens_toNat]
        exact congrArg BitVec.toNat ((hread _).trans (by simp))
      · rw [← ones_toNat]
        exact congrArg BitVec.toNat ((hread _).trans (by simp))
      · refine (hread a).trans ?_
        rw [if_neg (by omega), if_neg (by omega), if_neg (by omega)]
    · omega
  · rcases execLdB_cases x s with ⟨hin, -⟩ | ⟨-, ho⟩
    · omega
    · exact ho

/-! ### The register transfers -/

/-- Settles O48: the span check decides between the loop of writes and the fault; read_storeRegs is what the loop leaves. -/
theorem ldMemVxStoresTheRegisters : Obligations.LdMemVxStoresTheRegisters := by
  intro x s
  rw [exec_ldMemVx]
  refine ⟨fun h => ?_, fun h => ?_⟩
  · rcases execLdMemVx_cases x s with ⟨-, ho⟩ | ⟨habove, -⟩
    · refine ⟨_, ho, rfl, fun r hr => ?_, fun a ha => ?_, fun _ => rfl, keepsSpecials_setMem_advance _ _⟩
      · have hin : s.i.toNat ≤ s.i.toNat + r.val ∧ s.i.toNat + r.val ≤ s.i.toNat + x.val := by
          have := Fin.le_def.1 hr
          omega
        refine (read_storeRegs s x _).trans ((dif_pos hin).trans ?_)
        simp only [Nat.add_sub_cancel_left]
      · exact (read_storeRegs s x a).trans (dif_neg ha)
    · omega
  · rcases execLdMemVx_cases x s with ⟨hin, -⟩ | ⟨-, ho⟩
    · omega
    · exact ho

/-- Settles O49: the span check decides between the loop of reads and the fault; reg_loadRegs is what the loop leaves. -/
theorem ldVxMemLoadsTheRegisters : Obligations.LdVxMemLoadsTheRegisters := by
  intro x s
  rw [exec_ldVxMem]
  refine ⟨fun h => ?_, fun h => ?_⟩
  · rcases execLdVxMem_cases x s with ⟨-, ho⟩ | ⟨habove, -⟩
    · exact ⟨_, ho, rfl, reg_loadRegs s x, fun _ => rfl, ⟨rfl, rfl⟩, ⟨rfl, rfl⟩, ⟨rfl, rfl, rfl⟩, rfl, rfl⟩
    · omega
  · rcases execLdVxMem_cases x s with ⟨hin, -⟩ | ⟨-, ho⟩
    · omega
    · exact ho

end Sys2Proof.Machine
end
